-- ==== Sys2Proof/Word.lean ====
section
/-! DEFINITION. The word types: a frame-buffer byte, a port word of `W` bits, a command word and a control word
(spec/00_scope.md R8, R11; spec/30_encoding.md R80, R90, R94). -/

namespace Sys2Proof

/-- A frame-buffer byte; bit `k` belongs to logical data line `k` (R83). -/
abbrev Byte := BitVec 8

/-- A word of the parallel output port, `W` bits wide (R80). -/
abbrev PortWord (W : Nat) := BitVec W

/-- The 32-bit command word of the transport (R94). -/
abbrev CommandWord := BitVec 32

/-- The 16-bit brightness control word (R90). -/
abbrev ControlWord := BitVec 16

end Sys2Proof
end

