-- ==== Sys2Proof/Syntax.lean ====
section
/-! DEFINITION. The eight operations, one constructor per row of spec/opcode_table.json (spec/30_encoding.md R94, R95).
R94 makes the abstract constructor with its arguments the normative form, so the counts and the address are natural
numbers, not bounded by the command word's fields (D33). -/

namespace Sys2Proof

/-- An operation with its arguments (R94). -/
inductive Instr where
  /-- INIT p b n: planeCount, bankCount, bytesPerBankPlane (R201). -/
  | init (p b n : Nat)
  /-- SETBRT pct: the brightness percentage, an unsigned 8-bit integer (R171, R172). -/
  | setbrt (pct : Byte)
  /-- START (R204). -/
  | start
  /-- STOP (R206). -/
  | stop
  /-- TICK, produced by the timer (R141). -/
  | tick
  /-- FBSET a m (R122). -/
  | fbset (a : Nat) (m : Byte)
  /-- FBCLR a m (R123). -/
  | fbclr (a : Nat) (m : Byte)
  /-- FBWR a v (R124). -/
  | fbwr (a : Nat) (v : Byte)
  deriving DecidableEq, Repr

end Sys2Proof
end

