-- ==== Sys2Proof/WellFormed.lean ====
section
/-! DEFINITION. Which operations have a command word: the fields of spec/30_encoding.md R95 bound their arguments. The
bounds belong to the transport, not to the block (D33): the machine runs an operation outside them too. -/

namespace Sys2Proof

/-- The arguments fit the fields of R95: `p` and `b` three bits, `n` sixteen, `a` twenty. The 8-bit operands fit by
their type. -/
def Instr.wellFormed : Instr → Bool
  | .init p b n => decide (p < 8) && decide (b < 8) && decide (n < 65536)
  | .setbrt _ => true
  | .start => true
  | .stop => true
  | .tick => true
  | .fbset a _ => decide (a < 1048576)
  | .fbclr a _ => decide (a < 1048576)
  | .fbwr a _ => decide (a < 1048576)

end Sys2Proof
end

