-- ==== Sys2Proof/Decode.lean ====
section
/-! DEFINITION. The command word: the match and mask rows of spec/30_encoding.md R95, the decoder, total on every word
and rejecting by name (R96), and after it the encoder. -/

namespace Sys2Proof

/-- A row of R95: a word `w` spells the operation when `w & mask = pattern`. -/
structure OpcodeRow where
  mnemonic : String
  pattern  : CommandWord
  mask     : CommandWord
  deriving DecidableEq, Repr

/-- Why a word spells no operation (R96). -/
inductive DecodeError where
  /-- Bits 31:28 are 0 or 9 to 15. -/
  | reservedOpcode
  /-- The operation code is assigned but a fixed zero bit is not zero. -/
  | fixedBitsNotZero
  deriving DecidableEq, Repr

def initRow   : OpcodeRow := { mnemonic := "INIT",   pattern := 0x10000000#32, mask := 0xFF880000#32 }
def setbrtRow : OpcodeRow := { mnemonic := "SETBRT", pattern := 0x20000000#32, mask := 0xFFFFFF00#32 }
def startRow  : OpcodeRow := { mnemonic := "START",  pattern := 0x30000000#32, mask := 0xFFFFFFFF#32 }
def stopRow   : OpcodeRow := { mnemonic := "STOP",   pattern := 0x40000000#32, mask := 0xFFFFFFFF#32 }
def tickRow   : OpcodeRow := { mnemonic := "TICK",   pattern := 0x50000000#32, mask := 0xFFFFFFFF#32 }
def fbsetRow  : OpcodeRow := { mnemonic := "FBSET",  pattern := 0x60000000#32, mask := 0xF0000000#32 }
def fbclrRow  : OpcodeRow := { mnemonic := "FBCLR",  pattern := 0x70000000#32, mask := 0xF0000000#32 }
def fbwrRow   : OpcodeRow := { mnemonic := "FBWR",   pattern := 0x80000000#32, mask := 0xF0000000#32 }

/-- The table of R95, in its order. -/
def opcodeRows : List OpcodeRow :=
  [initRow, setbrtRow, startRow, stopRow, tickRow, fbsetRow, fbclrRow, fbwrRow]

/-- "a word `w` spells the operation when `w & mask = match`" (R95). -/
def OpcodeRow.spelledBy (r : OpcodeRow) (w : CommandWord) : Bool :=
  w &&& r.mask == r.pattern

/-- The unsigned field of `w` of `len` bits from bit `lo` up. -/
def field (w : CommandWord) (lo len : Nat) : Nat :=
  (w.extractLsb' lo len).toNat

/-- The mask or value field, bits 7:0. -/
def byteField (w : CommandWord) : Byte :=
  w.extractLsb' 0 8

/-- Bits 31:28 name no operation (R96). -/
def reservedOpcode (w : CommandWord) : Bool :=
  field w 28 4 == 0 || decide (9 ≤ field w 28 4)

/-- The decoder of R95 and R96. -/
def decode (w : CommandWord) : Except DecodeError Instr :=
  if initRow.spelledBy w then .ok (.init (field w 16 3) (field w 20 3) (field w 0 16))
  else if setbrtRow.spelledBy w then .ok (.setbrt (byteField w))
  else if startRow.spelledBy w then .ok .start
  else if stopRow.spelledBy w then .ok .stop
  else if tickRow.spelledBy w then .ok .tick
  else if fbsetRow.spelledBy w then .ok (.fbset (field w 8 20) (byteField w))
  else if fbclrRow.spelledBy w then .ok (.fbclr (field w 8 20) (byteField w))
  else if fbwrRow.spelledBy w then .ok (.fbwr (field w 8 20) (byteField w))
  else if reservedOpcode w then .error .reservedOpcode
  else .error .fixedBitsNotZero

/-- The decoder on the opcode table's numbering: every command is one 32-bit word (R94), so `w` is the word,
its bits above `nbits` 0. -/
def decodeTableWord (nbits w : Nat) : Option Instr :=
  if nbits ≤ 32 then (decode (BitVec.ofNat 32 (w % 2 ^ nbits))).toOption else none

/-- The encoder: the bit patterns of R95, most significant field first. An argument too large for its field is cut to
it; `Instr.wellFormed` says when none is. -/
def encode : Instr → CommandWord
  | .init p b n => 0x1#4 ++ 0x0#5 ++ BitVec.ofNat 3 b ++ 0x0#1 ++ BitVec.ofNat 3 p ++ BitVec.ofNat 16 n
  | .setbrt pct => 0x2#4 ++ 0x0#20 ++ pct
  | .start => 0x3#4 ++ 0x0#28
  | .stop => 0x4#4 ++ 0x0#28
  | .tick => 0x5#4 ++ 0x0#28
  | .fbset a m => 0x6#4 ++ BitVec.ofNat 20 a ++ m
  | .fbclr a m => 0x7#4 ++ BitVec.ofNat 20 a ++ m
  | .fbwr a v => 0x8#4 ++ BitVec.ofNat 20 a ++ v

/-- The row of the table an operation belongs to. -/
def Instr.row : Instr → OpcodeRow
  | .init _ _ _ => initRow
  | .setbrt _ => setbrtRow
  | .start => startRow
  | .stop => stopRow
  | .tick => tickRow
  | .fbset _ _ => fbsetRow
  | .fbclr _ _ => fbclrRow
  | .fbwr _ _ => fbwrRow

end Sys2Proof
end

