-- ==== Sys2Proof/Config.lean ====
section
/-! DEFINITION. The build-time parameters of spec/00_scope.md R8, the check of R10, and the two illustrative pin sets of
spec/95_test_vectors.md. A claim holds for every `Config`; an ill-formed one cannot be built (R10, U1). -/

namespace Sys2Proof

/-- The pixel-geometry parameters, read by SETPIX only (R8, R127). `gamma` is the table of R129: entry `v` is the
corrected pattern of the channel value `v`. -/
structure Geometry where
  width      : Nat
  height     : Nat
  blockMask  : Nat
  rowStride  : Nat
  rowShift   : Nat
  bankMask   : Nat
  heightMask : Nat
  rowBits    : Nat
  chBits     : Nat
  gamma      : Option (List Nat)
  deriving DecidableEq, Repr

/-- `bank` of R128: the address-selected bank of row `y`. -/
def Geometry.rowBank (g : Geometry) (y : Nat) : Nat := (y >>> g.rowShift) &&& g.bankMask

/-- The data line of row `y`: the shift count of `bitInByte` in R128. -/
def Geometry.rowLine (g : Geometry) (y : Nat) : Nat := (y &&& g.heightMask) >>> g.rowBits

/-- The shape of R129's channel values: a `GAMMA` table has one entry per channel value, none decreasing, each of at most
the six bits of the deepest legal `P`; without it `CH_BITS` reaches the shallowest legal `P`. -/
def Geometry.channelsWellFormed (g : Geometry) : Bool :=
  match g.gamma with
  | none => decide (1 ≤ g.chBits)
  | some t => decide (t.length = 2 ^ g.chBits) && t.all (fun v => decide (v < 64)) && decide (t.Pairwise (· ≤ ·))

/-- What R127 and R129 ask of the geometry whatever `P`, `B` and `N` INIT gives: every row of the panel on one of the
eight data lines and in a bank two address lines reach, and channel values of the right shape (U1). -/
def Geometry.wellFormed (g : Geometry) : Bool :=
  (decide (g.width = 0) ||
    (List.range g.height).all (fun y => decide (g.rowBank y < 4) && decide (g.rowLine y < 8))) &&
  g.channelsWellFormed

/-- The parameters of R8, before the check of R10. `dataPins` lists `PIN_D[0]` to `PIN_D[7]`. -/
structure Params where
  width        : Nat
  dataPins     : List Nat
  clkPin       : Nat
  latPin       : Nat
  oePin        : Nat
  a0Pin        : Nat
  a1Pin        : Nat
  chips        : Nat
  cwPrefix     : BitVec 10
  baseInterval : Nat
  fbInterleave : Bool
  geometry     : Geometry
  deriving DecidableEq, Repr

/-- The five control pins: `PIN_CLK`, `PIN_LAT`, `PIN_OE`, `PIN_A0`, `PIN_A1`. -/
def Params.controlPins (c : Params) : List Nat :=
  [c.clkPin, c.latPin, c.oePin, c.a0Pin, c.a1Pin]

/-- The thirteen owned pins. -/
def Params.ownedPins (c : Params) : List Nat :=
  c.dataPins ++ c.controlPins

/-- The check of R10 with R8, R230 and U1: `W` at least 13, eight data pins, thirteen pairwise distinct positions below
`W`, `C` at least 1, `BASE_INTERVAL` at least 64, and the part of R127 a build can check. The part that compares the
geometry with the `P`, `B` and `N` of INIT is `Config.geometryFits`; a pixel write that breaks it is refused F6 (R264). -/
def Params.wellFormed (c : Params) : Bool :=
  decide (13 ≤ c.width) && decide (c.dataPins.length = 8) && c.ownedPins.all (fun i => decide (i < c.width))
    && decide c.ownedPins.Nodup && decide (1 ≤ c.chips) && decide (64 ≤ c.baseInterval) && c.geometry.wellFormed

/-- A well-formed configuration: "a model refuses to build an ill-formed configuration and gives it no behaviour" (R10). -/
structure Config extends Params where
  wf : toParams.wellFormed = true
  deriving DecidableEq, Repr

/-- The plane bit of a channel value that has no bit for that plane: R129 "needs `CH_BITS >= P`" and gives no bit where
it is not so. A free value of the plane and the channel value: nothing constrains it (DESIGN CHOICE, log 13). -/
opaque Config.missingPlaneBit : Nat → Nat → Bool

/-- PSET-A of R134, the spec's illustrative geometry (its `C` is `chips` below). -/
def Geometry.psetA : Geometry :=
  { width := 16, height := 64, blockMask := 1, rowStride := 8, rowShift := 1, bankMask := 3, heightMask := 63,
    rowBits := 3, chBits := 8, gamma := none }

/-- PINSET-A of spec/95_test_vectors.md with `W` = 32, the illustrative `CW_PREFIX` 0x1B1 and PSET-A. DESIGN CHOICE:
the spec gives no value of any of them (log 2). -/
def Config.pinsetA : Config :=
  { width := 32, dataPins := [0, 1, 2, 3, 4, 5, 6, 7], clkPin := 8, latPin := 9, oePin := 10, a0Pin := 11, a1Pin := 12,
    chips := 6, cwPrefix := 0x1B1#10, baseInterval := 64, fbInterleave := false, geometry := Geometry.psetA,
    wf := by decide }

/-- PINSET-B of spec/95_test_vectors.md. -/
def Config.pinsetB : Config :=
  { width := 32, dataPins := [2, 3, 4, 5, 18, 19, 20, 21], clkPin := 6, latPin := 7, oePin := 8, a0Pin := 9, a1Pin := 10,
    chips := 1, cwPrefix := 0x1B1#10, baseInterval := 64, fbInterleave := false, geometry := Geometry.psetA,
    wf := by decide }

end Sys2Proof
end

