-- ==== Sys2Proof/Machine/State.lean ====
section
/-! DEFINITION. The state of the block (spec/10_state.md R20 to R32), the ways a step can stop, and the launch states with
reset among them (R37, R38; spec/70_reset_and_hazards.md R267). -/

namespace Sys2Proof.Machine

/-- Where the lifecycle stands (R30). -/
inductive Phase where
  | uninit
  | ready
  | running
  deriving DecidableEq, Repr

/-- The refusal reasons F1 to F7 of R226, which a refused operation records in `refused`. They do not stop the machine. -/
inductive RefusalReason where
  /-- F1: any operation but INIT and TICK in phase UNINIT. -/
  | notInitialised
  /-- F2: INIT outside phase UNINIT. -/
  | alreadyInitialised
  /-- F3: an INIT argument outside its range. -/
  | badConfiguration
  /-- F4: SETBRT in phase RUNNING. -/
  | brightnessWhileRunning
  /-- F5: START in phase RUNNING. -/
  | startWhileRunning
  /-- F6: a buffer primitive at an address of `P*B*N` or more. -/
  | bufferAddressOutOfRange
  /-- F7: a command word that spells no operation. -/
  | illegalCommand
  deriving DecidableEq, Repr

/-- The block has no fault: "no operation traps" (R238). -/
inductive Fault where
  deriving DecidableEq, Repr

/-- Why a step has no next state. The refusals F1 to F7 of the spec are not these: they are next states. -/
inductive Refusal where
  /-- An instruction whose meaning is not written yet; no arm of this model raises it. Safe. -/
  | notModelled (mnemonic : String)
  /-- Raised by TICK while the timer is disabled: "in any other phase the event does not exist and a model has no step
  for it" (R141, R221). Safe: such a list of commands is no run of the block. -/
  | tickNotEnabled
  /-- Raised by the delivery of a command other than FBSET, FBCLR, FBWR between two reads of one transition: only the
  primitives may fall there (R58). Safe: such a list is no run of the block. -/
  | transitionInProgress
  /-- Raised by the delivery of a scheduler read while no transition is going on (R58). Safe: as above. -/
  | noTransitionInProgress
  deriving DecidableEq, Repr

/-- The frame buffer's bytes as (address, byte) pairs in canonical form; an unlisted byte reads as `Memory.unlisted`. -/
abbrev Memory := List Host.Cell

/-- The parallel output port (R13, R25, R26) with the trace it emits (R31). `emitted` holds the newest word first;
`State.trace` is the spec's `trace`. -/
structure Pins (W : Nat) where
  port    : PortWord W
  dir     : PortWord W
  emitted : List (PortWord W)
  deriving DecidableEq, Repr

/-- A transition whose buffer reads are still going on (R58): the slice's base address, the sampled control word `base`
of R147, and the offset to be read next. -/
structure Streaming (W : Nat) where
  sb     : Nat
  base   : PortWord W
  offset : Nat
  deriving DecidableEq, Repr

/-- One entry of the run to come. -/
inductive Command where
  /-- A command word of the transport (R94, R95). -/
  | word (w : CommandWord)
  /-- An operation in its normative form (R94). -/
  | op (i : Instr)
  /-- The scheduler's next buffer read of an interleaved transition (R58). -/
  | nextRead
  deriving DecidableEq, Repr

/-- The state of the block (R20), the build-time parameters it was made with (R8), and the model's own `pending` (the
run to come, oldest first) and `streaming` (R58). `TABLE` is a function of `cfg` (R27). -/
structure State where
  cfg           : Config
  P             : Nat
  B             : Nat
  N             : Nat
  bank          : Nat
  plane         : Nat
  subcount      : BitVec 8
  pins          : Pins cfg.width
  tableBuilt    : Bool
  fb            : Memory
  timerArmed    : Bool
  timerEnabled  : Bool
  timerInterval : Nat
  phase         : Phase
  refused       : Option RefusalReason
  pending       : List Command
  streaming     : Option (Streaming cfg.width)
  deriving DecidableEq, Repr

/-- A launch state (R37, R267): phase UNINIT, nothing refused, nothing emitted, `DIR` 0, timer disarmed; the port, the
cursor, the buffer and `table_built` are arbitrary (R38). `P`, `B`, `N` and the interval have no value before INIT and
hold 0 (DESIGN CHOICE, log 3). -/
def State.launch (cfg : Config) (port : PortWord cfg.width) (bank plane : Nat) (subcount : BitVec 8)
    (tableBuilt : Bool) (fb : Memory) : State :=
  { cfg := cfg, P := 0, B := 0, N := 0, bank := bank, plane := plane, subcount := subcount,
    pins := { port := port, dir := 0#_, emitted := [] }, tableBuilt := tableBuilt, fb := fb, timerArmed := false,
    timerEnabled := false, timerInterval := 0, phase := .uninit, refused := none, pending := [], streaming := none }

/-- Reset is power-on (R37): the launch state with every arbitrary value 0, no byte listed and the table not yet built
(DESIGN CHOICE, logs 2 to 5). -/
def State.reset : State :=
  State.launch Config.pinsetA 0#_ 0 0 0#8 false []

end Sys2Proof.Machine
end

