-- ==== Sys2Proof/Machine/Ops.lean ====
section
/-! DEFINITION. The named operations: frame-buffer bytes (spec/00_scope.md R12), port primitives (R13), refusal (R14), the
timer restart (spec/60_exceptions.md R231), counted loops, and what HOST and an observer read. -/

namespace Sys2Proof.Machine

/-- `for i in 0 .. n-1`, ascending. -/
def loopFor {α : Type} (body : Nat → α → α) : Nat → α → α
  | 0, x => x
  | n + 1, x => body n (loopFor body n x)

/-! ### The frame buffer -/

/-- What a byte nothing has written reads as. DESIGN CHOICE (log 4): R38 leaves the launch bytes arbitrary; a launch
state with other bytes lists them. -/
def Memory.unlisted : Byte := 0x00#8

/-- `MemRead(a, 1)` (R12). -/
def Memory.read : Memory → Nat → Byte
  | [], _ => Memory.unlisted
  | c :: m, a => if c.1 = a then c.2 else Memory.read m a

/-- The bytes of `m` but the one at `a`. -/
def Memory.erase (m : Memory) (a : Nat) : Memory :=
  m.filter (fun c => c.1 != a)

/-- `m` with the cell `(a, v)` put where its address belongs. -/
def Memory.insert (a : Nat) (v : Byte) : Memory → Memory
  | [] => [(a, v)]
  | c :: m => if a < c.1 then (a, v) :: c :: m else c :: Memory.insert a v m

/-- `MemWrite(a, 1, v)` (R12). Writing what an unlisted byte reads as leaves the byte unlisted. -/
def Memory.write (m : Memory) (a : Nat) (v : Byte) : Memory :=
  if v = Memory.unlisted then m.erase a else Memory.insert a v (m.erase a)

/-- The canonical form: addresses strictly rising, no byte listed that an unlisted address reads as. -/
def Memory.wf : Memory → Bool
  | [] => true
  | c :: m => c.2 != Memory.unlisted && m.all (fun d => decide (c.1 < d.1)) && Memory.wf m

/-! ### The port primitives of R13 -/

variable {W : Nat}

/-- `PortRead()`: the register, not a pin level (R25). -/
def Pins.portRead (p : Pins W) : PortWord W := p.port

/-- `PORT <- w` then `emit(PORT)`. -/
def Pins.portWrite (p : Pins W) (w : PortWord W) : Pins W :=
  { p with port := w, emitted := w :: p.emitted }

/-- `PORT <- PORT | m` then `emit(PORT)`. -/
def Pins.portSet (p : Pins W) (m : PortWord W) : Pins W :=
  p.portWrite (p.portRead ||| m)

/-- `PORT <- PORT & ~m` then `emit(PORT)`. -/
def Pins.portClear (p : Pins W) (m : PortWord W) : Pins W :=
  p.portWrite (p.portRead &&& ~~~m)

/-- `DIR <- DIR | m` (R201); it emits nothing. -/
def Pins.driveOut (p : Pins W) (m : PortWord W) : Pins W :=
  { p with dir := p.dir ||| m }

/-! ### Refusal, the block's only exception, and the timer -/

/-- The mark after one more refusal: "set by the first `refuse` and never cleared" (R32). -/
def markRefused : Option RefusalReason → RefusalReason → Option RefusalReason
  | none, r => some r
  | some q, _ => some q

/-- `refuse F<n>` (R14, R226): no change to any state but the mark. The machine goes on. -/
def refuse (r : RefusalReason) (s : State) : State :=
  { s with refused := markRefused s.refused r }

/-- `TimerRestart()`: "emits nothing and changes no state of this model" (R152, R231). -/
def timerRestart (s : State) : State := s

/-! ### The state's parts -/

/-- `P*B*N`, the number of bytes of `FB` (R28). -/
abbrev State.bufferSize (s : State) : Nat := s.P * s.B * s.N

/-- HOST's read of one byte: `a < P*B*N`, no side effect, no command word (R120); before INIT the buffer has no size. -/
def State.hostRead (s : State) (a : Nat) : Option Byte :=
  if s.phase ≠ .uninit ∧ a < s.bufferSize then some (s.fb.read a) else none

/-- The pin trace, oldest word first (R31, R62). -/
def State.trace (s : State) : List (PortWord s.cfg.width) := s.pins.emitted.reverse

/-- The state with other port registers. -/
def State.withPins (s : State) (p : Pins s.cfg.width) : State := { s with pins := p }

/-- The state with other buffer bytes. -/
def State.withFb (s : State) (m : Memory) : State := { s with fb := m }

/-- `(bank, plane, subcount) <- (b, p, c)` (R12). -/
def State.withCursor (s : State) (b p : Nat) (c : BitVec 8) : State :=
  { s with bank := b, plane := p, subcount := c }

end Sys2Proof.Machine
end

