-- ==== Sys2Proof/Machine/Flags.lean ====
section
/-! DEFINITION. The block's status bits: the phase with the two timer flags (spec/10_state.md R29, R30). It has no condition
code: "no operation produces a result that a later operation tests" (R30). -/

namespace Sys2Proof.Machine

/-- A TICK can be delivered: phase RUNNING (R141) and `timer_enabled = 1` (R221); the two agree in every reachable
state (R30). -/
def State.tickEnabled (s : State) : Bool := s.timerEnabled && decide (s.phase = .running)

/-- INIT's arming of the timer: interval set, armed, not started, phase READY (R201, R230). -/
def State.armTimer (s : State) (interval : Nat) : State :=
  { s with timerInterval := interval, timerArmed := true, timerEnabled := false, phase := .ready }

/-- START's enabling of the timer (R204). -/
def State.enableTimer (s : State) : State :=
  { s with timerEnabled := true, phase := .running }

/-- STOP's disabling of the timer (R206). -/
def State.disableTimer (s : State) : State :=
  { s with timerEnabled := false, phase := if s.phase = .running then .ready else s.phase }

end Sys2Proof.Machine
end

