-- ==== Sys2Proof/Machine/Operands.lean ====
section
/-! DEFINITION. What the sequences compute from the parameters and the cursor: the channel mapping table
(spec/40_channel_map.md R111), the masks of spec/00_scope.md R15, buffer addresses (spec/20_memory.md R51, R52), the dwell
and the cursor's successor (spec/42_refresh_scheduler.md R143, R144), the gain code and the control word
(spec/43_brightness.md R173, R176). -/

namespace Sys2Proof

/-- The loop of R111 over the data lines from line `k` on: line `k` goes to the first pin listed. -/
def spreadBits (W : Nat) (v : Byte) : Nat → List Nat → PortWord W
  | _, [] => 0#W
  | k, pin :: pins => (if v.getLsbD k then BitVec.twoPow W pin else 0#W) ||| spreadBits W v (k + 1) pins

/-- `TABLE[v]` (R111, R115). -/
def Config.tableWord (c : Config) (v : Byte) : PortWord c.width := spreadBits c.width v 0 c.dataPins

/-- The contract `build(pinAssignment) -> table[256]` (R110). -/
def Config.buildTable (c : Config) : List (PortWord c.width) :=
  (List.range 256).map (fun v => c.tableWord (BitVec.ofNat 8 v))

/-! ### The masks of R15 -/

def Config.clk (c : Config) : PortWord c.width := BitVec.twoPow c.width c.clkPin
def Config.lat (c : Config) : PortWord c.width := BitVec.twoPow c.width c.latPin
def Config.oe (c : Config) : PortWord c.width := BitVec.twoPow c.width c.oePin
def Config.a0 (c : Config) : PortWord c.width := BitVec.twoPow c.width c.a0Pin
def Config.a1 (c : Config) : PortWord c.width := BitVec.twoPow c.width c.a1Pin
def Config.addrMask (c : Config) : PortWord c.width := c.a0 ||| c.a1
def Config.dataMask (c : Config) : PortWord c.width := c.tableWord 0xFF#8
def Config.ownedMask (c : Config) : PortWord c.width := c.dataMask ||| c.clk ||| c.lat ||| c.oe ||| c.addrMask

/-- `addr(b)`: the bank's two-bit value on the address lines (R15, R82). -/
def Config.addr (c : Config) (b : Nat) : PortWord c.width :=
  (if b.testBit 0 then c.a0 else 0#_) ||| (if b.testBit 1 then c.a1 else 0#_)

end Sys2Proof

namespace Sys2Proof.Machine

/-! ### Buffer addresses -/

/-- The linear address of plane `p`, bank `b`, offset `i` (R51). -/
def fbAddress (B N p b i : Nat) : Nat := (p * B + b) * N + i

/-- `sbase(p, b)`, both indices reduced modulo their bounds (R52). -/
def sbase (P B N p b : Nat) : Nat := ((p % P) * B + b % B) * N

/-- The plane, bank and offset of an address (R84). -/
def planeOf (B N a : Nat) : Nat := a / (B * N)
def bankOf (B N a : Nat) : Nat := a / N % B
def offsetOf (N a : Nat) : Nat := a % N

/-! ### The cursor -/

/-- `dwell(d) = 2^(P-1-d)` ticks (R143). -/
def dwell (P d : Nat) : Nat := 2 ^ (P - 1 - d)

/-- `next(bank, plane)` (R144): `bank` is the inner counter. -/
def nextPair (P B bank plane : Nat) : Nat × Nat :=
  if bank + 1 < B then (bank + 1, plane)
  else if plane + 1 < P then (0, plane + 1)
  else (0, 0)

/-! ### Brightness -/

/-- `gain(pct)` (R173): three linear segments, rounded down. -/
def gain (pct : Nat) : Nat :=
  if pct ≤ 12 then 0
  else if pct ≤ 100 then (pct - 12) * 43 / 88
  else if pct < 200 then 43 + (pct - 100) * 20 / 100
  else 63

/-- `cw = (CW_PREFIX << 6) | gain(pct)` (R90, R176). -/
def controlWord (cwPrefix : BitVec 10) (pct : Byte) : ControlWord :=
  cwPrefix ++ BitVec.ofNat 6 (gain pct.toNat)

end Sys2Proof.Machine
end

