-- ==== Sys2Proof/Machine/Brightness.lean ====
section
/-! DEFINITION. SETBRT (spec/43_brightness.md R171, R177 to R181). -/

namespace Sys2Proof.Machine

/-- `ctl`, the set-up word of a bank (R177). -/
def setupWord (c : Config) (port : PortWord c.width) (b : Nat) : PortWord c.width :=
  (port &&& ~~~(c.addrMask ||| c.dataMask ||| c.clk ||| c.lat)) ||| c.oe ||| c.addr b

/-- The data lines of step `j`: all eight carry `cw[15-j]` (R178). -/
def controlData (c : Config) (cw : ControlWord) (j : Nat) : PortWord c.width :=
  if cw.getLsbD (15 - j) then c.dataMask else 0#_

/-- The latch level of step `j` of chip `chip`: 1 in the last four steps of the last chip (R180). -/
def controlLatch (c : Config) (chip j : Nat) : PortWord c.width :=
  if chip + 1 = c.chips ∧ 12 ≤ j then c.lat else 0#_

/-- One bit: data and latch, clock up, clock down (R179). -/
def shiftControlBit (c : Config) (ctl : PortWord c.width) (cw : ControlWord) (chip j : Nat) (p : Pins c.width) :
    Pins c.width :=
  ((p.portWrite (ctl ||| controlData c cw j ||| controlLatch c chip j)).portSet c.clk).portClear c.clk

/-- The sixteen bits of one chip's control word, bit 15 first (R178). -/
def shiftControlWord (c : Config) (ctl : PortWord c.width) (cw : ControlWord) (chip : Nat) (p : Pins c.width) :
    Pins c.width :=
  loopFor (shiftControlBit c ctl cw chip) 16 p

/-- One bank: set-up, every chip of the chain, latch low (R177 to R181). -/
def writeBankControl (c : Config) (cw : ControlWord) (b : Nat) (p : Pins c.width) : Pins c.width :=
  let ctl := setupWord c p.portRead b
  (loopFor (shiftControlWord c ctl cw) c.chips (p.portWrite ctl)).portClear c.lat

/-- Every bank, ascending (R177). -/
def writeControl (c : Config) (cw : ControlWord) (B : Nat) (p : Pins c.width) : Pins c.width :=
  loopFor (writeBankControl c cw) B p

/-- SETBRT (R171): legal exactly in READY (R184). -/
def execSetbrt (pct : Byte) (s : State) : Host.Outcome State Fault Refusal :=
  match s.phase with
  | .uninit => .next (refuse .notInitialised s)
  | .running => .next (refuse .brightnessWhileRunning s)
  | .ready => .next (s.withPins (writeControl s.cfg (controlWord s.cfg.cwPrefix pct) s.B s.pins))

end Sys2Proof.Machine
end

