-- ==== Sys2Proof/Machine/FrameBuffer.lean ====
section
/-! DEFINITION. FBSET, FBCLR and FBWR (spec/41_framebuffer_ops.md R121 to R124). -/

namespace Sys2Proof.Machine

/-- The common checks, in their order, and then one byte replaced by a function of itself (R121). -/
def updateByte (a : Nat) (f : Byte → Byte) (s : State) : Host.Outcome State Fault Refusal :=
  if s.phase = .uninit then .next (refuse .notInitialised s)
  else if s.bufferSize ≤ a then .next (refuse .bufferAddressOutOfRange s)
  else .next (s.withFb (s.fb.write a (f (s.fb.read a))))

/-- FBSET (R122). -/
def execFbset (a : Nat) (m : Byte) (s : State) : Host.Outcome State Fault Refusal :=
  updateByte a (fun v => v ||| m) s

/-- FBCLR (R123), `~m` in 8 bits. -/
def execFbclr (a : Nat) (m : Byte) (s : State) : Host.Outcome State Fault Refusal :=
  updateByte a (fun v => v &&& ~~~m) s

/-- FBWR (R124). -/
def execFbwr (a : Nat) (v : Byte) (s : State) : Host.Outcome State Fault Refusal :=
  updateByte a (fun _ => v) s

end Sys2Proof.Machine
end

