-- ==== Sys2Proof/Machine/Lifecycle.lean ====
section
/-! DEFINITION. INIT, START and STOP (spec/44_lifecycle.md R201, R204, R206). -/

namespace Sys2Proof.Machine

/-- The ranges of R202: `P` in 1..6, `B` in 1..4, `N` at least 1. -/
def legalGeometry (p b n : Nat) : Bool :=
  decide (1 ≤ p) && decide (p ≤ 6) && decide (1 ≤ b) && decide (b ≤ 4) && decide (1 ≤ n)

/-- INIT's two accesses to the port: all owned lines become outputs, then one full word of idle levels (R201, R203). -/
def idlePins (c : Config) (p : Pins c.width) : Pins c.width :=
  let p := p.driveOut c.ownedMask
  p.portWrite ((p.portRead &&& ~~~c.ownedMask) ||| c.oe)

/-- INIT (R201). The table is built if it was not (R113); its contents are `Config.tableWord` either way. -/
def execInit (p b n : Nat) (s : State) : Host.Outcome State Fault Refusal :=
  if s.phase ≠ .uninit then .next (refuse .alreadyInitialised s)
  else if !legalGeometry p b n then .next (refuse .badConfiguration s)
  else
    .next (({ s with P := p, B := b, N := n, tableBuilt := true, pins := idlePins s.cfg s.pins } : State).armTimer
      (s.cfg.baseInterval >>> p))

/-- START (R204). -/
def execStart (s : State) : Host.Outcome State Fault Refusal :=
  match s.phase with
  | .uninit => .next (refuse .notInitialised s)
  | .running => .next (refuse .startWhileRunning s)
  | .ready => .next (s.withCursor 0 0 0#8).enableTimer

/-- STOP (R206). -/
def execStop (s : State) : Host.Outcome State Fault Refusal :=
  match s.phase with
  | .uninit => .next (refuse .notInitialised s)
  | .ready => .next s.disableTimer
  | .running => .next s.disableTimer

end Sys2Proof.Machine
end

