-- ==== Sys2Proof/Machine/Scheduler.lean ====
section
/-! DEFINITION. TICK (spec/42_refresh_scheduler.md R141 to R152), and the scheduler's single reads of a transition when
`FB_INTERLEAVE` is true (spec/20_memory.md R58). -/

namespace Sys2Proof.Machine

/-- `base`: the port word sampled once per transition, data and clock bits masked off (R147). -/
def sampledBase (c : Config) (port : PortWord c.width) : PortWord c.width :=
  port &&& ~~~(c.dataMask ||| c.clk)

/-- One byte of the slice: the full-word write with the clock low, then the rising edge (R148). -/
def streamByte (c : Config) (base : PortWord c.width) (v : Byte) (p : Pins c.width) : Pins c.width :=
  (p.portWrite (base ||| c.tableWord v)).portSet c.clk

/-- The slice, offset 0 first (R148). -/
def streamSlice (c : Config) (base : PortWord c.width) (fb : Memory) (sb n : Nat) (p : Pins c.width) : Pins c.width :=
  loopFor (fun i => streamByte c base (fb.read (sb + i))) n p

/-- The address lines take the new bank in one full-word write (R150). -/
def selectBank (c : Config) (b : Nat) (p : Pins c.width) : Pins c.width :=
  p.portWrite ((p.portRead &&& ~~~c.addrMask) ||| c.addr b)

/-- After the last byte: clock low (R149), address, latch pulse (R150, R151), outputs on (R152). -/
def finishTransition (c : Config) (b : Nat) (p : Pins c.width) : Pins c.width :=
  (((selectBank c b (p.portClear c.clk)).portSet c.lat).portClear c.lat).portClear c.oe

/-- Steps 1 and 2: `subcount` to 0, outputs off, cursor advanced (R144, R146, R147). -/
def beginTransition (s : State) : State :=
  let pair := nextPair s.P s.B s.bank s.plane
  ((s.withPins (s.pins.portSet s.cfg.oe)).withCursor pair.1 pair.2 0#8)

/-- Steps 3 to 5 in one go, of a state whose cursor has been advanced (R148 to R152). -/
def streamAndFinish (s : State) : State :=
  let base := sampledBase s.cfg s.pins.portRead
  let sb := sbase s.P s.B s.N s.plane s.bank
  timerRestart (s.withPins (finishTransition s.cfg s.bank (streamSlice s.cfg base s.fb sb s.N s.pins)))

/-- Steps 3 to 5 left to single reads: the base is sampled and the reads begin at offset 0 (R58, log 6). -/
def startReads (s : State) : State :=
  { s with streaming := some ⟨sbase s.P s.B s.N s.plane s.bank, sampledBase s.cfg s.pins.portRead, 0⟩ }

/-- A transition (R141). -/
def transition (s : State) : State :=
  if s.cfg.fbInterleave then startReads (beginTransition s) else streamAndFinish (beginTransition s)

/-- TICK (R141): enabled only while RUNNING; an idle tick only counts (R142). -/
def execTick (s : State) : Host.Outcome State Fault Refusal :=
  if s.tickEnabled then
    let count := s.subcount + 1#8
    if count.toNat < dwell s.P s.plane then .next { s with subcount := count }
    else .next (transition s)
  else .refused .tickNotEnabled

/-- One read of an interleaved transition, with its two port writes; the last one also ends the transition (R58,
log 6). -/
def readStep (s : State) (r : Streaming s.cfg.width) : State :=
  let pins := streamByte s.cfg r.base (s.fb.read (r.sb + r.offset)) s.pins
  if r.offset + 1 < s.N then { s with pins := pins, streaming := some { r with offset := r.offset + 1 } }
  else timerRestart { s with pins := finishTransition s.cfg s.bank pins, streaming := none }

end Sys2Proof.Machine
end

