-- ==== Sys2Proof/Machine/Dispatch.lean ====
section
/-! DEFINITION. One arm per operation of spec/opcode_table.json, each one call of its meaning. -/

namespace Sys2Proof.Machine

def exec (i : Instr) (s : State) : Host.Outcome State Fault Refusal :=
  match i with
  | .init p b n => Sys2Proof.Machine.execInit p b n s
  | .setbrt pct => Sys2Proof.Machine.execSetbrt pct s
  | .start => Sys2Proof.Machine.execStart s
  | .stop => Sys2Proof.Machine.execStop s
  | .tick => Sys2Proof.Machine.execTick s
  | .fbset a m => Sys2Proof.Machine.execFbset a m s
  | .fbclr a m => Sys2Proof.Machine.execFbclr a m s
  | .fbwr a v => Sys2Proof.Machine.execFbwr a v s

end Sys2Proof.Machine
end

