-- ==== Sys2Proof/Machine/Deliver.lean ====
section
/-! DEFINITION. How the run to come reaches the block: taking the next command, delivering it (spec/60_exceptions.md R224,
spec/20_memory.md R57, R58), and running a list of operations (spec/70_reset_and_hazards.md R266). -/

namespace Sys2Proof.Machine

/-- The next command, with the state that has it no longer to come; none when the run is at its end (R266). -/
def fetch (s : State) : Option (Command × State) :=
  match s.pending with
  | [] => none
  | c :: rest => some (c, { s with pending := rest })

/-- The operations that may fall between two reads of one transition (R58). -/
def isBufferPrimitive : Instr → Bool
  | .fbset _ _ => true
  | .fbclr _ _ => true
  | .fbwr _ _ => true
  | .init _ _ _ => false
  | .setbrt _ => false
  | .start => false
  | .stop => false
  | .tick => false

/-- An operation between two steps of the scheduler: any, unless a transition is going on (R57, R58). -/
def deliverInstr (i : Instr) (s : State) : Host.Outcome State Fault Refusal :=
  if s.streaming.isSome && !isBufferPrimitive i then .refused .transitionInProgress
  else exec i s

/-- A command word: the operation it spells, or F7 (R96, R226). -/
def deliverWord (w : CommandWord) (s : State) : Host.Outcome State Fault Refusal :=
  match decode w with
  | .ok i => deliverInstr i s
  | .error _ =>
    if s.streaming.isSome then .refused .transitionInProgress
    else .next (refuse .illegalCommand s)

/-- The scheduler's next read of the transition going on (R58). -/
def deliverRead (s : State) : Host.Outcome State Fault Refusal :=
  match s.streaming with
  | none => .refused .noTransitionInProgress
  | some r => .next (readStep s r)

/-- One command or event of the run. -/
def deliver (c : Command) (s : State) : Host.Outcome State Fault Refusal :=
  match c with
  | .word w => deliverWord w s
  | .op i => deliverInstr i s
  | .nextRead => deliverRead s

/-- HOST issues operations: they come after everything already to come. -/
def State.issue (s : State) (is : List Instr) : State :=
  { s with pending := s.pending ++ is.map Command.op }

/-- A list of operations run one after another, up to the first stop (R266). -/
def execAll : List Instr → State → Host.Outcome State Fault Refusal
  | [], s => .next s
  | i :: is, s =>
    match exec i s with
    | .next t => execAll is t
    | .fault r => .fault r
    | .refused r => .refused r

end Sys2Proof.Machine
end

