-- ==== Sys2Proof/Machine/Step.lean ====
section
/-! DEFINITION. One step: the next command of the run is delivered (spec/70_reset_and_hazards.md R266). -/

namespace Sys2Proof.Machine

/-- One step. With nothing to come the block does nothing (R251, R237; log 1). -/
def step (s : State) : Host.Outcome State Fault Refusal :=
  match fetch s with
  | none => .next s
  | some (c, t) => deliver c t

/-- `s` with the command word `w` (of `nbits` bits, the bits above them 0) next to come and no transition going on, so
that the very next step runs it (log 1). -/
def State.withFetchWord (s : State) (nbits w : Nat) : State :=
  { s with pending := .word (BitVec.ofNat 32 (w % 2 ^ nbits)) :: s.pending, streaming := none }

end Sys2Proof.Machine
end

