-- ==== Sys2Proof/Machine/Observe.lean ====
section
/-! DEFINITION. What a reader derives from the trace (spec/20_memory.md R62): edges of a line, the words at its rising
edges, and what reaches the pins. -/

namespace Sys2Proof.Machine

variable {W : Nat}

/-- The word before position `j` of a trace that follows the port value `before` (R62). -/
def wordBefore (before : PortWord W) (ws : List (PortWord W)) (j : Nat) : PortWord W :=
  if j = 0 then before else ws.getD (j - 1) before

/-- Line `x` has a rising edge at position `j` (R62). -/
def risesAt (x : Nat) (before : PortWord W) (ws : List (PortWord W)) (j : Nat) : Bool :=
  decide (j < ws.length) && !(wordBefore before ws j).getLsbD x && (ws.getD j before).getLsbD x

/-- Line `x` has a falling edge at position `j` (R62). -/
def fallsAt (x : Nat) (before : PortWord W) (ws : List (PortWord W)) (j : Nat) : Bool :=
  decide (j < ws.length) && (wordBefore before ws j).getLsbD x && !(ws.getD j before).getLsbD x

/-- The words in which line `x` rises, in order, each with the word before it. -/
def risingEdges (x : Nat) : PortWord W → List (PortWord W) → List (PortWord W × PortWord W)
  | _, [] => []
  | before, w :: ws =>
    if !before.getLsbD x && w.getLsbD x then (before, w) :: risingEdges x w ws else risingEdges x w ws

/-- The words in which line `x` falls, in order, each with the word before it. -/
def fallingEdges (x : Nat) : PortWord W → List (PortWord W) → List (PortWord W × PortWord W)
  | _, [] => []
  | before, w :: ws =>
    if before.getLsbD x && !w.getLsbD x then (before, w) :: fallingEdges x w ws else fallingEdges x w ws

/-- The bits of an emitted word that reach a pin: owned and driven (R26, R62). -/
def State.onPins (s : State) (w : PortWord s.cfg.width) : PortWord s.cfg.width :=
  w &&& s.cfg.ownedMask &&& s.pins.dir

end Sys2Proof.Machine
end

