-- ==== Sys2Proof/Machine/PixelEncoder.lean ====
section
/-! DEFINITION. The pseudo-operations of HOST: SETPIX (spec/41_framebuffer_ops.md R125 to R131), CLEAR (R132) and the
abbreviation `TICK*k` (spec/30_encoding.md R97), as the operations they expand to. -/

namespace Sys2Proof

/-- `CH_STRIDE`, the distance of the blue, green and red bytes of one column position (R85). -/
def chStride : Nat := 16

/-- `offset` of R128: `(x & 7) + (x & ~7) * C + (y & blockMask) * rowStride`. -/
def Config.pixelOffset (c : Config) (x y : Nat) : Nat :=
  (x &&& 7) + (8 * (x / 8)) * c.chips + (y &&& c.geometry.blockMask) * c.geometry.rowStride

/-- `bank` of R128. -/
def Config.pixelBank (c : Config) (y : Nat) : Nat :=
  c.geometry.rowBank y

/-- The data line a pixel's row selects: the shift count of `bitInByte` in R128. -/
def Config.pixelLine (c : Config) (y : Nat) : Nat :=
  c.geometry.rowLine y

/-- `bitInByte` of R128. -/
def Config.pixelBit (c : Config) (y : Nat) : Byte :=
  BitVec.twoPow 8 (c.pixelLine y)

/-- Whether the channel values have `P` bits (R129): `CH_BITS` is at least `P`, or every `GAMMA` entry has `P` bits. The
table's length and order are checked when the configuration is built (`Geometry.channelsWellFormed`). -/
def Geometry.channelsFit (g : Geometry) (P : Nat) : Bool :=
  match g.gamma with
  | none => decide (P ≤ g.chBits)
  | some t => t.all (fun v => decide (v < 2 ^ P))

/-- R127: every pixel of the panel keeps its three bytes inside the slice, its bank below `B` and its line below 8. -/
def Config.geometryFits (c : Config) (P B N : Nat) : Bool :=
  c.geometry.channelsFit P &&
  (List.range c.geometry.width).all (fun x => (List.range c.geometry.height).all (fun y =>
    decide (c.pixelOffset x y + 2 * chStride < N) && decide (c.pixelBank y < B) && decide (c.pixelLine y < 8)))

/-- A colour: three channel values of `CH_BITS` bits (R125). -/
structure Colour (bits : Nat) where
  r : BitVec bits
  g : BitVec bits
  b : BitVec bits
  deriving DecidableEq, Repr

/-- The corrected value of a channel (R129). A built configuration's table has an entry for every channel value. -/
def Geometry.corrected (g : Geometry) (v : BitVec g.chBits) : Nat :=
  match g.gamma with
  | none => v.toNat
  | some t => t.getD v.toNat 0

/-- `msb`: the index of the corrected value's most significant bit (R129). -/
def Geometry.msb (g : Geometry) (P : Nat) : Nat :=
  match g.gamma with
  | none => g.chBits - 1
  | some _ => P - 1

/-- The bit plane `d` receives of a channel value: `corrected[msb - d]` (R86, R129). Where `CH_BITS < P` and there is no
`GAMMA` the planes past `CH_BITS - 1` have no such bit, and R129 gives none: there it is the free value
`Config.missingPlaneBit`. Of a `GAMMA` entry wider than `P` bits only the low `P` count. Both are the model's choice
(DESIGN CHOICE, log 13), and neither arises where `channelsFit` holds. -/
def Geometry.planeBit (g : Geometry) (P d : Nat) (v : BitVec g.chBits) : Bool :=
  if d ≤ g.msb P then (g.corrected v).testBit (g.msb P - d) else Config.missingPlaneBit d v.toNat

/-- The channels in the order of R130: blue 0, green 1, red 2. -/
def Colour.channels {bits : Nat} (k : Colour bits) : List (Nat × BitVec bits) :=
  [(0, k.b), (1, k.g), (2, k.r)]

/-- The pixel lies on the panel (R126). -/
def Geometry.onPanel (g : Geometry) (x y : Int) : Bool :=
  decide (0 ≤ x) && decide (x < g.width) && decide (0 ≤ y) && decide (y < g.height)

end Sys2Proof

namespace Sys2Proof.Machine

/-- The primitive that sets or clears one pixel bit (R130). -/
def bitOp (bit : Bool) (a : Nat) (m : Byte) : Instr :=
  if bit then .fbset a m else .fbclr a m

/-- The address of a pixel's byte in plane `d` (R130) where R127 keeps it inside the slice; elsewhere the first address
past the buffer, so that the write is refused F6 and lands in no other slice (R264, U4). Which out-of-range address
stands there is the model's choice (DESIGN CHOICE, log 13). -/
def pixelAddress (P B N d bank offset : Nat) : Nat :=
  if bank < B ∧ offset < N then fbAddress B N d bank offset else P * B * N

/-- The three primitives of plane `d` for the pixel `(x, y)` of the panel (R130). -/
def setPixelPlane (c : Config) (P B N x y d : Nat) (k : Colour c.geometry.chBits) : List Instr :=
  k.channels.map (fun ch =>
    bitOp (c.geometry.planeBit P d ch.2)
      (pixelAddress P B N d (c.pixelBank y) (c.pixelOffset x y + ch.1 * chStride)) (c.pixelBit y))

/-- SETPIX (R130): planes ascending; off the panel it expands to nothing (R126). -/
def setPixel (c : Config) (P B N : Nat) (x y : Int) (k : Colour c.geometry.chBits) : List Instr :=
  if c.geometry.onPanel x y then
    (List.range P).flatMap (fun d => setPixelPlane c P B N x.toNat y.toNat d k)
  else []

/-- CLEAR (R132): every byte, addresses ascending. -/
def clear (P B N : Nat) (white : Bool) : List Instr :=
  (List.range (P * B * N)).map (fun a => .fbwr a (if white then 0xFF#8 else 0x00#8))

/-- `TICK*k` (R97). -/
def ticks (k : Nat) : List Instr := List.replicate k .tick

/-- HOST's pixel write on the block as it is configured (R125). Before INIT `P` has no value; whatever it is, the first
primitive is refused F1 and so are the others, so the expansion is one plane's (log 9). -/
def State.setPixelOps (s : State) (x y : Int) (k : Colour s.cfg.geometry.chBits) : List Instr :=
  setPixel s.cfg (if s.phase = .uninit then 1 else s.P) s.B s.N x y k

/-- HOST's buffer clear on the block as it is configured (R132). Before INIT the buffer has no known size; the first
primitive is then refused F1, so the expansion is that one primitive (R132, log 9). -/
def State.clearOps (s : State) (white : Bool) : List Instr :=
  if s.phase = .uninit then [.fbwr 0 (if white then 0xFF#8 else 0x00#8)]
  else clear s.P s.B s.N white

end Sys2Proof.Machine
end

