-- ==== Sys2Proof/Safety.lean ====
section
/-! DEFINITION. The terms claims use: the invariant of spec/10_state.md R39 with what it rests on, safe runs
(spec/60_exceptions.md R238), the words of a transition and of a control write written out as lists
(spec/42_refresh_scheduler.md R153, spec/43_brightness.md R182), and the cursor's schedule (R145). -/

namespace Sys2Proof.Machine

/-- What every step keeps (R21, R22 to R32, R37, R39, R52), over every state and not only over runs from reset. -/
structure State.Inv (s : State) : Prop where
  /-- The buffer's bytes are in canonical form. -/
  bufferCanonical : s.fb.wf = true
  /-- "`phase = RUNNING` exactly when `timer_enabled = 1`" (R30). -/
  enabledIffRunning : s.timerEnabled = true ↔ s.phase = .running
  /-- "`phase != UNINIT` exactly when `timer_armed = 1`" (R30). -/
  armedIffInitialised : s.timerArmed = true ↔ s.phase ≠ .uninit
  /-- Before INIT nothing has been emitted, no line is driven and no transition goes on (R37). -/
  untouched : s.phase = .uninit → s.pins.emitted = [] ∧ s.pins.dir = 0#_ ∧ s.streaming = none
  /-- After INIT the block is configured (R21, R26, R27, R230). -/
  configured : s.phase ≠ .uninit →
    legalGeometry s.P s.B s.N = true ∧ s.tableBuilt = true ∧ s.timerInterval = s.cfg.baseInterval >>> s.P ∧
    s.pins.dir &&& s.cfg.ownedMask = s.cfg.ownedMask
  /-- `PORT` is the last word emitted: it changes only by a primitive that emits (R13, R25). -/
  portIsLastWord : s.phase ≠ .uninit → s.pins.emitted.head? = some s.pins.port
  /-- The cursor's ranges while RUNNING (R39). -/
  cursorInRange : s.phase = .running →
    s.bank < s.B ∧ s.plane < s.P ∧ s.subcount.toNat < dwell s.P s.plane
  /-- Clock and latch are low between the steps of a configured block (R39), but inside an interleaved transition. -/
  linesIdle : s.phase ≠ .uninit → s.streaming = none →
    s.pins.port &&& s.cfg.clk = 0#_ ∧ s.pins.port &&& s.cfg.lat = 0#_
  /-- A transition goes on only while RUNNING with `FB_INTERLEAVE`; it reads the cursor's slice, latch low, outputs off,
  and its control word has the clock and the data lines low and the unowned bits of the port (R58, R147). -/
  readsInSlice : ∀ r, s.streaming = some r →
    s.phase = .running ∧ s.cfg.fbInterleave = true ∧ r.sb = sbase s.P s.B s.N s.plane s.bank ∧ r.offset < s.N ∧
    s.pins.port &&& s.cfg.lat = 0#_ ∧ s.pins.port &&& s.cfg.oe = s.cfg.oe ∧
    r.base &&& s.cfg.lat = 0#_ ∧ r.base &&& s.cfg.oe = s.cfg.oe ∧
    r.base &&& (s.cfg.clk ||| s.cfg.dataMask) = 0#_ ∧
    r.base &&& ~~~s.cfg.ownedMask = s.pins.port &&& ~~~s.cfg.ownedMask

/-- A run of `k` steps is safe: no step stops, and the run is not marked by a refused command (R32, R238). -/
def SafeRun (k : Nat) (s : State) : Prop :=
  ∃ t : State, Host.Core.run { State := State, Fault := Fault, Refusal := Refusal, step := step, reset := State.reset } k s
    = .next t ∧ t.refused = none

/-! ### The words of the two sequences -/

/-- The bytes of the slice of plane `p` and bank `b`, offset 0 first (R52, R88). -/
def sliceBytes (fb : Memory) (P B N p b : Nat) : List Byte :=
  (List.range N).map (fun i => fb.read (sbase P B N p b + i))

/-- The `2N` words of streaming (R148). -/
def streamWords (c : Config) (base : PortWord c.width) (vs : List Byte) : List (PortWord c.width) :=
  vs.flatMap (fun v => [base ||| c.tableWord v, base ||| c.tableWord v ||| c.clk])

/-- The five words after the last byte, from the port word `last` with the clock low (R149 to R152). -/
def closingWords (c : Config) (b : Nat) (last : PortWord c.width) : List (PortWord c.width) :=
  let sel := (last &&& ~~~c.addrMask) ||| c.addr b
  [last, sel, sel ||| c.lat, sel &&& ~~~c.lat, sel &&& ~~~c.lat &&& ~~~c.oe]

/-- The `2N + 6` words of a transition into bank `b` that streams `vs` when the port holds `port` (R153). -/
def transitionWords (c : Config) (port : PortWord c.width) (b : Nat) (vs : List Byte) : List (PortWord c.width) :=
  let base := sampledBase c (port ||| c.oe)
  (port ||| c.oe) :: (streamWords c base vs ++ closingWords c b (base ||| c.tableWord (vs.getLastD 0#8)))

/-- The word of step `j` of chip `chip` with the clock low (R178 to R180). -/
def controlStepWord (c : Config) (ctl : PortWord c.width) (cw : ControlWord) (chip j : Nat) : PortWord c.width :=
  ctl ||| controlData c cw j ||| controlLatch c chip j

/-- The three words of one bit (R179). -/
def controlBitWords (c : Config) (ctl : PortWord c.width) (cw : ControlWord) (chip j : Nat) : List (PortWord c.width) :=
  let w := controlStepWord c ctl cw chip j
  [w, w ||| c.clk, w]

/-- The 48 words of one chip (R178, R179). -/
def controlChipWords (c : Config) (ctl : PortWord c.width) (cw : ControlWord) (chip : Nat) : List (PortWord c.width) :=
  (List.range 16).flatMap (controlBitWords c ctl cw chip)

/-- The set-up word of bank `b`: unowned bits as in `port`, outputs off, address `b`, all else low (R177). -/
def bankSetup (c : Config) (port : PortWord c.width) (b : Nat) : PortWord c.width :=
  (port &&& ~~~c.ownedMask) ||| c.oe ||| c.addr b

/-- The `48*C + 2` words of one bank (R182). -/
def controlBankWords (c : Config) (port : PortWord c.width) (cw : ControlWord) (b : Nat) : List (PortWord c.width) :=
  let ctl := bankSetup c port b
  ctl :: ((List.range c.chips).flatMap (controlChipWords c ctl cw) ++ [ctl ||| controlData c cw 15])

/-- The `B*(48*C + 2)` words of a SETBRT (R182). -/
def controlWords (c : Config) (port : PortWord c.width) (cw : ControlWord) (B : Nat) : List (PortWord c.width) :=
  (List.range B).flatMap (controlBankWords c port cw)

/-! ### The schedule -/

/-- `k` TICKs one after another. -/
def tickTimes (k : Nat) (s : State) : Host.Outcome State Fault Refusal := execAll (ticks k) s

/-- One tick of the cursor `(bank, plane, subcount)` (R142 to R144). -/
def cursorTick (P B : Nat) (x : Nat × Nat × Nat) : Nat × Nat × Nat :=
  if x.2.2 + 1 < dwell P x.2.1 then (x.1, x.2.1, x.2.2 + 1)
  else ((nextPair P B x.1 x.2.1).1, (nextPair P B x.1 x.2.1).2, 0)

/-- The cursor after `k` ticks from `(0, 0, 0)`. -/
def cursorAfter (P B : Nat) : Nat → Nat × Nat × Nat
  | 0 => (0, 0, 0)
  | k + 1 => cursorTick P B (cursorAfter P B k)

/-- The cursor's successor as `transition` uses it. -/
def State.nextBank (s : State) : Nat := (nextPair s.P s.B s.bank s.plane).1
def State.nextPlane (s : State) : Nat := (nextPair s.P s.B s.bank s.plane).2

/-- The bytes a transition from `s` streams. -/
def State.nextSlice (s : State) : List Byte := sliceBytes s.fb s.P s.B s.N s.nextPlane s.nextBank

/-- The state's cursor. -/
def State.cursor (s : State) : Nat × Nat × Nat := (s.bank, s.plane, s.subcount.toNat)

/-- Ticks of one refresh cycle: `B * (2^P - 1)` (R145). -/
def cycleTicks (P B : Nat) : Nat := B * (2 ^ P - 1)

/-- The byte operation a buffer primitive performs, with its address. -/
def byteUpdate : Instr → Option (Nat × (Byte → Byte))
  | .fbset a m => some (a, fun v => v ||| m)
  | .fbclr a m => some (a, fun v => v &&& ~~~m)
  | .fbwr a v => some (a, fun _ => v)
  | .init _ _ _ => none
  | .setbrt _ => none
  | .start => none
  | .stop => none
  | .tick => none

/-- Which refusal an operation raises: the table of R226, tests in the order of R227 (phase first, then arguments). -/
def refusalOf (s : State) : Instr → Option RefusalReason
  | .init p b n =>
    if s.phase ≠ .uninit then some .alreadyInitialised
    else if 1 ≤ p ∧ p ≤ 6 ∧ 1 ≤ b ∧ b ≤ 4 ∧ n ≠ 0 then none else some .badConfiguration
  | .setbrt _ =>
    if s.phase = .uninit then some .notInitialised
    else if s.phase = .running then some .brightnessWhileRunning else none
  | .start =>
    if s.phase = .uninit then some .notInitialised
    else if s.phase = .running then some .startWhileRunning else none
  | .stop => if s.phase = .uninit then some .notInitialised else none
  | .tick => none
  | .fbset a _ => bufferRefusal a
  | .fbclr a _ => bufferRefusal a
  | .fbwr a _ => bufferRefusal a
where
  bufferRefusal (a : Nat) : Option RefusalReason :=
    if s.phase = .uninit then some .notInitialised
    else if s.P * s.B * s.N ≤ a then some .bufferAddressOutOfRange else none

/-- The operation a command stands for, if any. -/
def commandInstr : Command → Option Instr
  | .word w => (decode w).toOption
  | .op i => some i
  | .nextRead => none

end Sys2Proof.Machine
end

