-- ==== Sys2Proof/Certificates/Slice0/Obligations.lean ====
section
/-! DEFINITION. The statements for the provers, in the order of the spec's files: encoding, delivery, buffer, port, table,
scheduler, brightness, lifecycle, whole machine. -/

open Sys2Proof Sys2Proof.Machine

/-! ### Encoding -/

/-- Words written out from R95 and V50, V51 decode to what they stand for; a sanity statement. -/
def Obligations.SampleCommandWordsDecode : Prop :=
  decode 0x10410018#32 = .ok (.init 1 4 24) ∧
  decode 0x1046FFFF#32 = .ok (.init 6 4 65535) ∧
  decode 0x200000C8#32 = .ok (.setbrt 200#8) ∧
  decode 0x30000000#32 = .ok .start ∧
  decode 0x40000000#32 = .ok .stop ∧
  decode 0x50000000#32 = .ok .tick ∧
  decode 0x60002001#32 = .ok (.fbset 32 0x01#8) ∧
  decode 0x7000F902#32 = .ok (.fbclr 249 0x02#8) ∧
  decode 0x8FFFFFFF#32 = .ok (.fbwr 1048575 0xFF#8) ∧
  decode 0x00000000#32 = .error .reservedOpcode ∧
  decode 0x90000000#32 = .error .reservedOpcode ∧
  decode 0x30000001#32 = .error .fixedBitsNotZero ∧
  decode 0x10490018#32 = .error .fixedBitsNotZero

/-- Every operation whose arguments fit the fields of R95 is read back from its word. -/
def Obligations.EncodedOperationDecodesBack : Prop :=
  ∀ i : Instr, i.wellFormed = true → decode (encode i) = .ok i

/-- Every word that decodes is the one word of the operation it gives: no bit of a word is ignored (R95). -/
def Obligations.DecodedWordIsItsEncoding : Prop :=
  ∀ (w : CommandWord) (i : Instr), decode w = .ok i → i.wellFormed = true ∧ encode i = w

/-- R96: which words spell no operation; that the machine refuses them F7 and goes on; and that an INIT word with a bad
argument decodes and is refused F3. -/
def Obligations.ReservedWordsAreRefused : Prop :=
  (∀ w : CommandWord, (∃ e, decode w = .error e) ↔
    (w.extractLsb' 28 4 = 0#4 ∨ 9#4 ≤ w.extractLsb' 28 4 ∨
     (w.extractLsb' 28 4 = 1#4 ∧ w &&& 0x0F880000#32 ≠ 0#32) ∨
     (w.extractLsb' 28 4 = 2#4 ∧ w &&& 0x0FFFFF00#32 ≠ 0#32) ∨
     ((w.extractLsb' 28 4 = 3#4 ∨ w.extractLsb' 28 4 = 4#4 ∨ w.extractLsb' 28 4 = 5#4) ∧
       w &&& 0x0FFFFFFF#32 ≠ 0#32))) ∧
  (∀ (s : State) (w : CommandWord) (rest : List Command) (e : DecodeError),
    s.streaming = none → s.pending = .word w :: rest → decode w = .error e →
    step s = .next { s with pending := rest, refused := markRefused s.refused .illegalCommand }) ∧
  (∀ (s : State) (p b n : Nat), p < 8 → b < 8 → n < 65536 → ¬ (1 ≤ p ∧ p ≤ 6 ∧ 1 ≤ b ∧ b ≤ 4 ∧ n ≠ 0) →
    s.phase = .uninit →
    decode (encode (.init p b n)) = .ok (.init p b n) ∧
    exec (.init p b n) s = .next { s with refused := markRefused s.refused .badConfiguration })

/-! ### Delivery -/

/-- A step takes the next command and runs it: a word that decodes runs as the operation it spells, an operation in its
normal form runs as itself, and with nothing to come the block does nothing (log 1 says how a run reaches the block). -/
def Obligations.StepRunsTheNextOperation : Prop :=
  ∀ s : State, s.streaming = none →
    (s.pending = [] → step s = .next s) ∧
    (∀ w rest i, s.pending = .word w :: rest → decode w = .ok i → step s = exec i { s with pending := rest }) ∧
    (∀ i rest, s.pending = .op i :: rest → step s = exec i { s with pending := rest })

/-- R58 with `FB_INTERLEAVE`: between two reads of a transition only the buffer primitives run; the scheduler's next
read is a step of its own, which streams the byte the buffer then holds, and after the last one the transition ends. What
such a step holds, that an operation or a reserved word there and a read outside a transition have no step, and the
refusals' names are the model's choice (log 6). -/
def Obligations.OnlyPrimitivesRunInsideATransition : Prop :=
  (∀ (s : State) (r : Streaming s.cfg.width), s.streaming = some r →
    (∀ rest, s.pending = .nextRead :: rest → ∃ p : Pins s.cfg.width,
      step s = .next { s with pending := rest, pins := p,
                              streaming := if r.offset + 1 < s.N then some { r with offset := r.offset + 1 } else none } ∧
      p.dir = s.pins.dir ∧ p.emitted.head? = some p.port ∧
      p.emitted.reverse = s.pins.emitted.reverse ++
        (streamWords s.cfg r.base [s.fb.read (r.sb + r.offset)] ++
          if r.offset + 1 < s.N then []
          else closingWords s.cfg s.bank
            ((r.base ||| s.cfg.tableWord (s.fb.read (r.sb + r.offset)) ||| s.cfg.clk) &&& ~~~s.cfg.clk))) ∧
    (∀ w rest i, s.pending = .word w :: rest → decode w = .ok i → isBufferPrimitive i = true →
      step s = exec i { s with pending := rest }) ∧
    (∀ w rest i, s.pending = .word w :: rest → decode w = .ok i → isBufferPrimitive i = false →
      step s = .refused .transitionInProgress) ∧
    (∀ i rest, s.pending = .op i :: rest → isBufferPrimitive i = true → step s = exec i { s with pending := rest }) ∧
    (∀ w rest e, s.pending = .word w :: rest → decode w = .error e → step s = .refused .transitionInProgress) ∧
    (∀ i rest, s.pending = .op i :: rest → isBufferPrimitive i = false → step s = .refused .transitionInProgress)) ∧
  ∀ (s : State) (rest : List Command), s.streaming = none → s.pending = .nextRead :: rest →
    step s = .refused .noTransitionInProgress

/-- A list of buffer primitives issued to a block with nothing else to come runs, step by step, as `execAll` runs it: the
pseudo-operations SETPIX and CLEAR reach the machine as their expansions (R97). -/
def Obligations.IssuedPrimitivesRunInOrder : Prop :=
  ∀ (s : State) (is : List Instr), s.pending = [] → s.streaming = none → (∀ i ∈ is, isBufferPrimitive i = true) →
    ∃ t, Host.Core.run core is.length (s.issue is) = .next t ∧ execAll is s = .next t

/-! ### The frame buffer -/

/-- A byte read after a write gives the written byte at that address and the old byte at every other (R12, R59). -/
def Obligations.BufferReadAfterWrite : Prop :=
  ∀ (m : Memory) (a : Nat) (v : Byte),
    (m.write a v).read a = v ∧ ∀ x, x ≠ a → (m.write a v).read x = m.read x

/-- R122: FBSET with its encoding, its two refusals, its result, and its frame: only the one byte changes. -/
def Obligations.FbsetSetsBitsOfOneByte : Prop :=
  ∀ (s : State) (a : Nat) (m : Byte),
    (a < 2 ^ 20 → decode (0x6#4 ++ BitVec.ofNat 20 a ++ m) = .ok (.fbset a m)) ∧
    (s.phase = .uninit → exec (.fbset a m) s = .next (refuse .notInitialised s)) ∧
    (s.phase ≠ .uninit → s.P * s.B * s.N ≤ a → exec (.fbset a m) s = .next (refuse .bufferAddressOutOfRange s)) ∧
    (s.phase ≠ .uninit → a < s.P * s.B * s.N →
      ∃ fb, exec (.fbset a m) s = .next { s with fb := fb } ∧ fb.read a = s.fb.read a ||| m ∧
        ∀ x, x ≠ a → fb.read x = s.fb.read x)

/-- R123: FBCLR, as FBSET. -/
def Obligations.FbclrClearsBitsOfOneByte : Prop :=
  ∀ (s : State) (a : Nat) (m : Byte),
    (a < 2 ^ 20 → decode (0x7#4 ++ BitVec.ofNat 20 a ++ m) = .ok (.fbclr a m)) ∧
    (s.phase = .uninit → exec (.fbclr a m) s = .next (refuse .notInitialised s)) ∧
    (s.phase ≠ .uninit → s.P * s.B * s.N ≤ a → exec (.fbclr a m) s = .next (refuse .bufferAddressOutOfRange s)) ∧
    (s.phase ≠ .uninit → a < s.P * s.B * s.N →
      ∃ fb, exec (.fbclr a m) s = .next { s with fb := fb } ∧
        (∀ k, k < 8 → (fb.read a).getLsbD k = ((s.fb.read a).getLsbD k && !m.getLsbD k)) ∧
        ∀ x, x ≠ a → fb.read x = s.fb.read x)

/-- R124: FBWR, as FBSET. -/
def Obligations.FbwrWritesOneByte : Prop :=
  ∀ (s : State) (a : Nat) (v : Byte),
    (a < 2 ^ 20 → decode (0x8#4 ++ BitVec.ofNat 20 a ++ v) = .ok (.fbwr a v)) ∧
    (s.phase = .uninit → exec (.fbwr a v) s = .next (refuse .notInitialised s)) ∧
    (s.phase ≠ .uninit → s.P * s.B * s.N ≤ a → exec (.fbwr a v) s = .next (refuse .bufferAddressOutOfRange s)) ∧
    (s.phase ≠ .uninit → a < s.P * s.B * s.N →
      ∃ fb, exec (.fbwr a v) s = .next { s with fb := fb } ∧ fb.read a = v ∧ ∀ x, x ≠ a → fb.read x = s.fb.read x)

/-- R52: the slice is the `N` bytes from `((p mod P)*B + (b mod B))*N` on; every one of them lies inside the buffer
whatever the cursor holds; and where the cursor is in range the reductions change nothing. -/
def Obligations.SliceReadsStayInTheBuffer : Prop :=
  ∀ (fb : Memory) (P B N p b : Nat), 0 < P → 0 < B →
    (sliceBytes fb P B N p b).length = N ∧
    (∀ i, i < N → (sliceBytes fb P B N p b)[i]? = some (fb.read (((p % P) * B + b % B) * N + i)) ∧
      ((p % P) * B + b % B) * N + i < P * B * N) ∧
    (p < P → b < B → sbase P B N p b = fbAddress B N p b 0)

/-- An address decomposes into the plane, bank and offset it was made from, so no two of them share a byte (R51; that
the fields are these quotients is the spec's own derivation in 30_encoding.md section 2). -/
def Obligations.BufferAddressDecomposes : Prop :=
  ∀ B N p b i : Nat, b < B → i < N →
    planeOf B N (fbAddress B N p b i) = p ∧ bankOf B N (fbAddress B N p b i) = b ∧ offsetOf N (fbAddress B N p b i) = i

/-- R132: CLEAR's expansion leaves every byte of the buffer white or dark, and changes nothing else. HOST reads it back
(R120); that HOST's read gives none at and past `P*B*N` is log 11. -/
def Obligations.ClearFillsTheBuffer : Prop :=
  ∀ (s : State) (white : Bool), s.phase ≠ .uninit →
    ∃ fb, execAll (s.clearOps white) s = .next { s with fb := fb } ∧
      (∀ a, fb.read a = if a < s.P * s.B * s.N then (if white then 0xFF#8 else 0x00#8) else s.fb.read a) ∧
      ∀ a, (s.withFb fb).hostRead a =
        if a < s.P * s.B * s.N then some (if white then 0xFF#8 else 0x00#8) else none

/-- SETPIX on the panel (R130): bit `bitInByte` of the three channel bytes of every plane takes the pixel's bits of R129,
and every other bit of the buffer and everything else stays (what the spec derives in 41_framebuffer_ops.md R131). -/
def Obligations.SetPixelWritesExactlyItsBits : Prop :=
  ∀ (s : State) (x y : Nat) (k : Colour s.cfg.geometry.chBits), s.phase ≠ .uninit →
    s.cfg.geometryFits s.P s.B s.N = true → x < s.cfg.geometry.width → y < s.cfg.geometry.height →
    ∃ fb, execAll (s.setPixelOps x y k) s = .next { s with fb := fb } ∧
      (∀ d, d < s.P → ∀ ch ∈ k.channels,
        (fb.read (fbAddress s.B s.N d (s.cfg.pixelBank y) (s.cfg.pixelOffset x y + ch.1 * 16))).getLsbD
          (s.cfg.pixelLine y) = s.cfg.geometry.planeBit s.P d ch.2) ∧
      (∀ a line, line < 8 →
        (line ≠ s.cfg.pixelLine y ∨ ∀ d, d < s.P → ∀ ch ∈ k.channels,
          a ≠ fbAddress s.B s.N d (s.cfg.pixelBank y) (s.cfg.pixelOffset x y + ch.1 * 16)) →
        (fb.read a).getLsbD line = (s.fb.read a).getLsbD line)

/-- R126: off the panel SETPIX expands to no primitive, refuses nothing and changes nothing. -/
def Obligations.SetPixelOffThePanelDoesNothing : Prop :=
  ∀ (s : State) (x y : Int) (k : Colour s.cfg.geometry.chBits),
    ¬ (0 ≤ x ∧ x < s.cfg.geometry.width ∧ 0 ≤ y ∧ y < s.cfg.geometry.height) →
    s.setPixelOps x y k = [] ∧ execAll (s.setPixelOps x y k) s = .next s

/-! ### The channel mapping table -/

/-- R111: bit `i` of `TABLE[v]` is set exactly when some bit `k` of the byte is set and `PIN_D[k]` is `i`; the corner
cases and the worked examples; the table built has these 256 words in order; and an accepted INIT leaves it built. -/
def Obligations.TablePermutesTheByte : Prop :=
  (∀ c : Config,
    (∀ (v : Byte) (i : Nat), (c.tableWord v).getLsbD i = true ↔
      ∃ k, k < 8 ∧ v.getLsbD k = true ∧ c.dataPins[k]? = some i) ∧
    c.tableWord 0#8 = 0#c.width ∧ c.tableWord 0xFF#8 = c.dataMask ∧
    (∀ k i, k < 8 → c.dataPins[k]? = some i → c.tableWord (BitVec.twoPow 8 k) = BitVec.twoPow c.width i) ∧
    c.buildTable.length = 256 ∧ ∀ v : Byte, c.buildTable[v.toNat]? = some (c.tableWord v)) ∧
  (∀ v : Byte, (Config.pinsetA.tableWord v).toNat = v.toNat) ∧ (Config.pinsetB.tableWord 0xA5#8).toNat = 0x280014 ∧
  ∀ (s : State) (p b n : Nat), s.phase = .uninit → 1 ≤ p → p ≤ 6 → 1 ≤ b → b ≤ 4 → 1 ≤ n →
    ∃ t, exec (.init p b n) s = .next t ∧ t.tableBuilt = true

/-- The five properties the spec derives of every table (40_channel_map.md, R112 (a) to (e)). -/
def Obligations.TableIsABitPermutation : Prop :=
  ∀ (c : Config) (u v : Byte),
    c.tableWord (u ||| v) = c.tableWord u ||| c.tableWord v ∧
    c.tableWord (u &&& v) = c.tableWord u &&& c.tableWord v ∧
    c.tableWord u &&& ~~~c.dataMask = 0#c.width ∧
    c.tableWord u ^^^ c.tableWord v = c.tableWord (u ^^^ v) ∧
    (c.tableWord u = c.tableWord v → u = v) ∧
    (List.range c.width).countP (fun i => (c.tableWord u).getLsbD i) = (List.range 8).countP (fun k => u.getLsbD k)

/-! ### The scheduler -/

/-- R142: an idle tick counts and does nothing else. -/
def Obligations.IdleTickOnlyCounts : Prop :=
  ∀ s : State, s.phase = .running → s.timerEnabled = true → (s.subcount + 1#8).toNat < dwell s.P s.plane →
    exec .tick s = .next { s with subcount := s.subcount + 1#8 }

/-- R144: the advance of the cursor on the tick that reaches the dwell: `subcount` is reset, `bank` is the inner counter,
`plane` the outer one, both wrap to 0. -/
def Obligations.TransitionAdvancesTheCursor : Prop :=
  ∀ s : State, s.phase = .running → s.timerEnabled = true → dwell s.P s.plane ≤ (s.subcount + 1#8).toNat →
    ∃ t, exec .tick s = .next t ∧ t.subcount = 0#8 ∧
      (s.bank + 1 < s.B → t.bank = s.bank + 1 ∧ t.plane = s.plane) ∧
      (s.B ≤ s.bank + 1 → s.plane + 1 < s.P → t.bank = 0 ∧ t.plane = s.plane + 1) ∧
      (s.B ≤ s.bank + 1 → s.P ≤ s.plane + 1 → t.bank = 0 ∧ t.plane = 0)

/-- R141: TICK. Without the timer there is no step; below the dwell it counts; at the dwell it advances the cursor and
emits the `2N + 6` words of `transitionWords`, streaming the new pair's slice, and nothing but `subcount`, `bank`,
`plane`, `PORT` and the trace changes. (With `FB_INTERLEAVE` false, its default, R58.) -/
def Obligations.TickFollowsTheSequence : Prop :=
  ∀ s : State, s.cfg.fbInterleave = false → 0 < s.N →
    (¬ (s.phase = .running ∧ s.timerEnabled = true) → ¬ ∃ t, exec .tick s = .next t) ∧
    (s.phase = .running → s.timerEnabled = true → (s.subcount + 1#8).toNat < dwell s.P s.plane →
      exec .tick s = .next { s with subcount := s.subcount + 1#8 }) ∧
    (s.phase = .running → s.timerEnabled = true → dwell s.P s.plane ≤ (s.subcount + 1#8).toNat →
      ∃ p : Pins s.cfg.width,
        exec .tick s = .next { s with bank := s.nextBank, plane := s.nextPlane, subcount := 0#8, pins := p } ∧
        p.dir = s.pins.dir ∧
        p.emitted.reverse = s.pins.emitted.reverse ++
          transitionWords s.cfg s.pins.port s.nextBank (sliceBytes s.fb s.P s.B s.N s.nextPlane s.nextBank) ∧
        p.emitted.head? = some p.port)

/-- The clock and data of a transition (derived in R153 and R154 (b)): `2N + 6` words; the clock rises exactly `N` times,
at the `i`-th with `TABLE` of the slice's byte `i` on the data lines, set one word before. -/
def Obligations.TransitionClocksTheSlice : Prop :=
  ∀ (c : Config) (port : PortWord c.width) (b : Nat) (vs : List Byte),
    (transitionWords c port b vs).length = 2 * vs.length + 6 ∧
    (risingEdges c.clkPin port (transitionWords c port b vs)).map (fun e => (e.1 &&& c.dataMask, e.2 &&& c.dataMask))
      = vs.map (fun v => (c.tableWord v, c.tableWord v)) ∧
    (∀ e ∈ risingEdges c.clkPin port (transitionWords c port b vs), e.1 &&& ~~~c.clk = e.2 &&& ~~~c.clk)

/-- Output-enable, latch, address and unowned lines of a transition (derived in R154 (a), (c), (d), (e)), when the latch
is low before it: outputs off in every word but the last; the latch high in exactly one word, with the clock low and the
new bank's address; the address changes at most once, before it; unowned bits never change. -/
def Obligations.TransitionLatchesOnceInTheDark : Prop :=
  ∀ (c : Config) (port : PortWord c.width) (b : Nat) (vs : List Byte), vs ≠ [] → port.getLsbD c.latPin = false →
    ∀ (j : Nat) (w : PortWord c.width), (transitionWords c port b vs)[j]? = some w →
      w.getLsbD c.oePin = decide (j + 1 < 2 * vs.length + 6) ∧
      w.getLsbD c.latPin = decide (j = 2 * vs.length + 3) ∧
      (2 * vs.length < j → w.getLsbD c.clkPin = false) ∧
      (j ≤ 2 * vs.length + 1 → w &&& c.addrMask = port &&& c.addrMask) ∧
      (2 * vs.length + 2 ≤ j → w &&& c.addrMask = c.addr b) ∧
      (∀ i, i ∉ c.ownedPins → w.getLsbD i = port.getLsbD i)

/-- What stays on the pins after a transition (R157): the data lines keep the last streamed byte, the address lines the
bank, output-enable, latch and clock are 0, and every unowned bit is as before. -/
def Obligations.TransitionLeavesTheLastByteLit : Prop :=
  ∀ s : State, s.cfg.fbInterleave = false → 0 < s.N → s.phase = .running → s.timerEnabled = true →
    dwell s.P s.plane ≤ (s.subcount + 1#8).toNat →
    ∃ p : Pins s.cfg.width,
      exec .tick s = .next { s with bank := s.nextBank, plane := s.nextPlane, subcount := 0#8, pins := p } ∧
      p.port &&& s.cfg.dataMask =
        s.cfg.tableWord (s.fb.read (sbase s.P s.B s.N s.nextPlane s.nextBank + (s.N - 1))) ∧
      p.port &&& s.cfg.addrMask = s.cfg.addr s.nextBank ∧
      p.port &&& (s.cfg.oe ||| s.cfg.lat ||| s.cfg.clk) = 0#s.cfg.width ∧
      ∀ i, i ∉ s.cfg.ownedPins → p.port.getLsbD i = s.pins.port.getLsbD i

/-- The first dwell after START is dark (derived in R155): `2^(P-1) - 1` ticks that change no pin and only count, then
one that enters the pair after `(0,0)`. -/
def Obligations.FirstDwellAfterStartIsDark : Prop :=
  ∀ s t : State, s.phase = .ready → s.cfg.fbInterleave = false → 1 ≤ s.P → s.P ≤ 6 → 1 ≤ s.N →
    exec .start s = .next t →
    (∀ k, k < 2 ^ (s.P - 1) →
      tickTimes k t = .next { t with bank := 0, plane := 0, subcount := BitVec.ofNat 8 k }) ∧
    ∃ u, tickTimes (2 ^ (s.P - 1)) t = .next u ∧
      u.cursor = ((nextPair s.P s.B 0 0).1, (nextPair s.P s.B 0 0).2, 0) ∧
      u.pins.emitted.length = s.pins.emitted.length + (2 * s.N + 6)

/-- The schedule from START (derived in R145): after any number of ticks the cursor is the one `cursorAfter` counts, and
it is back at `(0,0,0)` after each refresh cycle of `B * (2^P - 1)` ticks. -/
def Obligations.RefreshCycleRepeats : Prop :=
  ∀ s : State, s.phase = .running → s.timerEnabled = true → s.cfg.fbInterleave = false →
    1 ≤ s.P → s.P ≤ 6 → 1 ≤ s.B → s.B ≤ 4 → s.cursor = (0, 0, 0) →
    (∀ k, ∃ t, tickTimes k s = .next t ∧ t.cursor = cursorAfter s.P s.B k ∧ t.fb = s.fb ∧ t.phase = .running) ∧
    ∀ n, ∃ t, tickTimes (n * cycleTicks s.P s.B) s = .next t ∧ t.cursor = (0, 0, 0)

/-- Fairness (derived in R156): in one refresh cycle each pair of bank `b` and plane `d` is selected for exactly
`2^(P-1-d)` ticks. -/
def Obligations.PlanesDwellInProportion : Prop :=
  ∀ P B d b : Nat, 1 ≤ P → P ≤ 6 → 1 ≤ B → B ≤ 4 → d < P → b < B →
    (List.range (cycleTicks P B)).countP (fun k => decide (((cursorAfter P B k).1, (cursorAfter P B k).2.1) = (b, d)))
      = 2 ^ (P - 1 - d)

/-- Intensity (derived in R158): a channel value `v` of `P` bits, plane `d` holding bit `P-1-d`, is driven during exactly
`v` of the ticks its bank is selected in one refresh cycle. -/
def Obligations.IntensityIsTheChannelValue : Prop :=
  ∀ P B b v : Nat, 1 ≤ P → P ≤ 6 → 1 ≤ B → B ≤ 4 → b < B → v < 2 ^ P →
    (List.range (cycleTicks P B)).countP (fun k =>
      decide ((cursorAfter P B k).1 = b) && v.testBit (P - 1 - (cursorAfter P B k).2.1)) = v

/-- With `FB_INTERLEAVE` true and no primitive between the reads, a TICK and its `N` reads do together what the TICK does
in one step: the same words, the same port, the same cursor ("every other part of the transition stays as specified",
R58; the split of the words over the steps is log 6). -/
def Obligations.InterleavedTransitionIsTheSameTransition : Prop :=
  ∀ s : State, s.cfg.fbInterleave = true → 0 < s.N → s.phase = .running → s.timerEnabled = true →
    s.streaming = none → dwell s.P s.plane ≤ (s.subcount + 1#8).toNat →
    s.pending = .op .tick :: List.replicate s.N .nextRead →
    ∃ p : Pins s.cfg.width,
      Host.Core.run core (s.N + 1) s =
        .next { s with bank := s.nextBank, plane := s.nextPlane, subcount := 0#8, pins := p, pending := [] } ∧
      p.dir = s.pins.dir ∧
      p.emitted.reverse = s.pins.emitted.reverse ++
        transitionWords s.cfg s.pins.port s.nextBank (sliceBytes s.fb s.P s.B s.N s.nextPlane s.nextBank) ∧
      p.emitted.head? = some p.port

/-- The scheduler takes no decision from the buffer's contents (derived in R160): two states that differ only in the
buffer both run a TICK, to the same cursor and to traces that agree on every line but the data lines. -/
def Obligations.ControlLinesDoNotDependOnTheBuffer : Prop :=
  ∀ (s : State) (fb : Memory), s.cfg.fbInterleave = false → s.phase = .running → s.timerEnabled = true → 0 < s.N →
    ∃ (b p : Nat) (c : BitVec 8) (q r : Pins s.cfg.width),
      exec .tick s = .next { s with bank := b, plane := p, subcount := c, pins := q } ∧
      exec .tick { s with fb := fb } =
        .next { s with fb := fb, bank := b, plane := p, subcount := c, pins := r } ∧
      q.emitted.map (fun w => w &&& ~~~s.cfg.dataMask) = r.emitted.map (fun w => w &&& ~~~s.cfg.dataMask)

/-- R221: the TICK event exists exactly while the timer is enabled in phase RUNNING; after STOP there is none until the
next START. That it answers the refusal `tickNotEnabled` elsewhere is the model's choice (log 7). -/
def Obligations.NoTickWhileTheTimerIsDisabled : Prop :=
  (∀ s : State, exec .tick s = .refused .tickNotEnabled ↔ ¬ (s.phase = .running ∧ s.timerEnabled = true)) ∧
  (∀ s t : State, s.phase ≠ .uninit → exec .stop s = .next t → exec .tick t = .refused .tickNotEnabled) ∧
  (∀ s t : State, s.phase = .ready → exec .start s = .next t → ∃ u, exec .tick t = .next u)

/-! ### Brightness -/

/-- R173: the three linear segments, rounded down. -/
def Obligations.GainFollowsTheSegments : Prop :=
  ∀ pct : Nat,
    (pct ≤ 12 → gain pct = 0) ∧
    (12 < pct → pct ≤ 100 → 88 * gain pct ≤ 43 * (pct - 12) ∧ 43 * (pct - 12) < 88 * (gain pct + 1)) ∧
    (100 < pct → pct < 200 →
      43 ≤ gain pct ∧ 100 * (gain pct - 43) ≤ 20 * (pct - 100) ∧ 20 * (pct - 100) < 100 * (gain pct - 43 + 1)) ∧
    (200 ≤ pct → gain pct = 63)

/-- The gain code never decreases, stays in six bits, and takes every code (derived in R174). -/
def Obligations.GainIsMonotonic : Prop :=
  (∀ p q : Nat, p ≤ q → gain p ≤ gain q) ∧ (∀ p : Nat, gain p ≤ 63) ∧ gain 12 = 0 ∧ gain 100 = 0x2B ∧ gain 200 = 63 ∧
  ∀ g : Nat, g < 64 → ∃ p, p < 256 ∧ gain p = g

/-- R90, R176: the ten constant bits over the gain code. -/
def Obligations.ControlWordLayout : Prop :=
  ∀ (pre : BitVec 10) (pct : Byte),
    (controlWord pre pct).toNat = pre.toNat * 64 + gain pct.toNat ∧
    (controlWord pre pct).extractLsb' 6 10 = pre

/-- R171: SETBRT. In UNINIT refused F1, in RUNNING F4; in READY it emits the words of `controlWords`, bank by bank, chip
by chip, bit by bit, and nothing but `PORT` and the trace changes. -/
def Obligations.SetbrtShiftsTheControlWord : Prop :=
  ∀ (s : State) (pct : Byte),
    (s.phase = .uninit → exec (.setbrt pct) s = .next (refuse .notInitialised s)) ∧
    (s.phase = .running → exec (.setbrt pct) s = .next (refuse .brightnessWhileRunning s)) ∧
    (s.phase = .ready → 0 < s.B →
      ∃ p : Pins s.cfg.width, exec (.setbrt pct) s = .next { s with pins := p } ∧ p.dir = s.pins.dir ∧
        p.emitted.reverse = s.pins.emitted.reverse ++
          controlWords s.cfg s.pins.port (controlWord s.cfg.cwPrefix pct) s.B ∧
        p.emitted.head? = some p.port)

/-- One bank's control write (derived in R182 and R183 (a), (b), (c), (e)): `48*C + 2` words, outputs off and the bank's
address in all of them, unowned bits unchanged, and the clock rises `16*C` times, each chip's sixteen rises carrying
`cw[15]` down to `cw[0]` on all eight data lines. -/
def Obligations.BankWriteClocksEveryChip : Prop :=
  ∀ (c : Config) (port : PortWord c.width) (cw : ControlWord) (b : Nat),
    (controlBankWords c port cw b).length = 48 * c.chips + 2 ∧
    (∀ w ∈ controlBankWords c port cw b, w.getLsbD c.oePin = true ∧ w &&& c.addrMask = c.addr b ∧
      ∀ i, i ∉ c.ownedPins → w.getLsbD i = port.getLsbD i) ∧
    (risingEdges c.clkPin port (controlBankWords c port cw b)).map (fun e => (e.1 &&& c.dataMask, e.2 &&& c.dataMask))
      = (List.range c.chips).flatMap (fun _ => (List.range 16).map (fun j =>
          if cw.getLsbD (15 - j) then (c.dataMask, c.dataMask) else (0#c.width, 0#c.width)))

/-- R180: of the `48*C + 2` words of one bank's control write the latch is high in the twelve of the last four bits of the
last chip and in no other; it rises once, and it is high at exactly the last four of the `16*C` rising clock edges. -/
def Obligations.LatchIsHighOnTheLastFourBits : Prop :=
  ∀ (c : Config) (port : PortWord c.width) (cw : ControlWord) (b : Nat),
    (controlBankWords c port cw b).map (fun w => w.getLsbD c.latPin)
      = List.replicate (48 * c.chips - 11) false ++ List.replicate 12 true ++ [false] ∧
    (risingEdges c.clkPin port (controlBankWords c port cw b)).map (fun e => e.2.getLsbD c.latPin)
      = List.replicate (16 * c.chips - 4) false ++ List.replicate 4 true ∧
    (risingEdges c.latPin 0#c.width (controlBankWords c port cw b)).length = 1 ∧
    (fallingEdges c.latPin 0#c.width (controlBankWords c port cw b)).length = 1

/-- R181: after SETBRT the outputs are off, latch and clock low, the address the last bank's, the data lines at `cw[0]`,
the unowned bits as before; and it emits `B*(48*C + 2)` words. -/
def Obligations.SetbrtLeavesTheOutputsOff : Prop :=
  ∀ (s : State) (pct : Byte), s.phase = .ready → 0 < s.B →
    ∃ p : Pins s.cfg.width, exec (.setbrt pct) s = .next { s with pins := p } ∧
      p.port &&& s.cfg.oe = s.cfg.oe ∧ p.port &&& (s.cfg.lat ||| s.cfg.clk) = 0#s.cfg.width ∧
      p.port &&& s.cfg.addrMask = s.cfg.addr (s.B - 1) ∧
      p.port &&& s.cfg.dataMask =
        (if (controlWord s.cfg.cwPrefix pct).getLsbD 0 then s.cfg.dataMask else 0#s.cfg.width) ∧
      (∀ i, i ∉ s.cfg.ownedPins → p.port.getLsbD i = s.pins.port.getLsbD i) ∧
      p.emitted.length = s.pins.emitted.length + s.B * (48 * s.cfg.chips + 2)

/-! ### The lifecycle -/

/-- R201, R202: INIT. Refused F2 outside UNINIT and F3 on a bad argument, in that order; else it configures the block,
drives every owned line as an output, writes one word with outputs off and every other owned line low, arms the timer at
`BASE_INTERVAL >> P`, and changes neither the buffer nor the cursor. -/
def Obligations.InitConfiguresTheBlock : Prop :=
  ∀ (s : State) (p b n : Nat),
    (s.phase ≠ .uninit → exec (.init p b n) s = .next (refuse .alreadyInitialised s)) ∧
    (s.phase = .uninit → (p < 1 ∨ 6 < p ∨ b < 1 ∨ 4 < b ∨ n < 1) →
      exec (.init p b n) s = .next (refuse .badConfiguration s)) ∧
    (s.phase = .uninit → 1 ≤ p → p ≤ 6 → 1 ≤ b → b ≤ 4 → 1 ≤ n →
      ∃ q : Pins s.cfg.width,
        exec (.init p b n) s = .next { s with P := p, B := b, N := n, pins := q, tableBuilt := true,
                                              timerArmed := true, timerEnabled := false,
                                              timerInterval := s.cfg.baseInterval / 2 ^ p, phase := .ready } ∧
        q.emitted = q.port :: s.pins.emitted ∧
        (∀ i, q.dir.getLsbD i = (s.pins.dir.getLsbD i || decide (i ∈ s.cfg.ownedPins))) ∧
        (∀ i, q.port.getLsbD i =
          if i ∈ s.cfg.ownedPins then decide (i = s.cfg.oePin) else s.pins.port.getLsbD i))

/-- R204: START. Refused F1 in UNINIT and F5 in RUNNING; in READY it resets the cursor, enables the timer, and touches
nothing else, the pins least of all. -/
def Obligations.StartResetsTheCursor : Prop :=
  ∀ s : State,
    (s.phase = .uninit → exec .start s = .next (refuse .notInitialised s)) ∧
    (s.phase = .running → exec .start s = .next (refuse .startWhileRunning s)) ∧
    (s.phase = .ready →
      exec .start s = .next { s with bank := 0, plane := 0, subcount := 0#8, timerEnabled := true, phase := .running })

/-- R206: STOP. Refused F1 in UNINIT; else the timer is disabled and the phase is READY, and nothing else changes; the
port, with its lit bank, stays (R207). -/
def Obligations.StopOnlyDisablesTheTimer : Prop :=
  ∀ s : State,
    (s.phase = .uninit → exec .stop s = .next (refuse .notInitialised s)) ∧
    (s.phase ≠ .uninit → exec .stop s = .next { s with timerEnabled := false, phase := .ready })

/-- R226 with R14 and R32: each operation (a TICK only where it exists) is refused exactly where the table of R226 says,
with that reason, and a refusal changes nothing but the mark, which the first one keeps; any other operation leaves the
mark alone. So a step from an unmarked state is a safe run exactly when the table has no refusal for it. -/
def Obligations.RefusalsFollowTheTable : Prop :=
  ∀ (s : State) (i : Instr), (i = .tick → s.phase = .running ∧ s.timerEnabled = true) →
    (∀ r, refusalOf s i = some r → exec i s = .next { s with refused := markRefused s.refused r }) ∧
    (refusalOf s i = none → ∃ t, exec i s = .next t ∧ t.refused = s.refused) ∧
    (∀ rest, s.pending = .op i :: rest → s.streaming = none → s.refused = none →
      (SafeRun 1 s ↔ refusalOf s i = none))

/-- A timer interval is never 0 in an initialised block that meets the invariant (R230 asks it of a well-formed
configuration). -/
def Obligations.TimerIntervalIsNeverZero : Prop :=
  ∀ s : State, s.Inv → s.phase ≠ .uninit → 1 ≤ s.timerInterval ∧ s.timerInterval = s.cfg.baseInterval / 2 ^ s.P

/-! ### The whole machine -/

/-- Every launch state with a canonical buffer meets the invariant, whatever the port, the cursor and the bytes; reset,
whose values are the model's choice (logs 2 to 5), is one of them. -/
def Obligations.LaunchStatesMeetTheInvariant : Prop :=
  (∀ (cfg : Config) (port : PortWord cfg.width) (b p : Nat) (c : BitVec 8) (built : Bool) (fb : Memory),
    fb.wf = true → (State.launch cfg port b p c built fb).Inv) ∧
  State.reset.Inv

/-- What reaches the pins (R26, R62): nothing before INIT, every owned bit of a word after it. -/
def Obligations.OwnedLinesReachThePins : Prop :=
  ∀ (s : State) (w : PortWord s.cfg.width), s.Inv →
    (s.phase = .uninit → s.onPins w = 0#s.cfg.width) ∧ (s.phase ≠ .uninit → s.onPins w = w &&& s.cfg.ownedMask)

/-- Every step keeps the invariant, from every state that has it, not only in runs from reset. -/
def Obligations.StepKeepsTheInvariant : Prop :=
  ∀ s t : State, s.Inv → step s = .next t → t.Inv

/-- Bits the block does not own are changed by no step of a state that meets the invariant, of the port or of the
direction register, and no direction bit is ever cleared (R25, R26). -/
def Obligations.UnownedBitsAreNeverChanged : Prop :=
  ∀ s t : State, s.Inv → step s = .next t →
    (∀ i, i ∉ s.cfg.ownedPins → t.pins.port.getLsbD i = s.pins.port.getLsbD i) ∧
    (∀ i, i ∉ s.cfg.ownedPins → t.pins.dir.getLsbD i = s.pins.dir.getLsbD i) ∧
    (∀ i, s.pins.dir.getLsbD i = true → t.pins.dir.getLsbD i = true)

/-- The trace is only appended to (R31), and the port changes only with it: a step that emits nothing leaves `PORT`. -/
def Obligations.TraceOnlyGrows : Prop :=
  ∀ s t : State, step s = .next t →
    ∃ ws : List Nat, t.trace.map BitVec.toNat = s.trace.map BitVec.toNat ++ ws ∧
      (ws = [] → t.pins.port.toNat = s.pins.port.toNat) ∧ (ws ≠ [] → ws.getLast? = some t.pins.port.toNat)

/-- The configuration is written once: the build-time parameters by no step, `P`, `B`, `N`, the interval and the table's
flag by no step of an initialised block, which never returns to UNINIT (R21, R209). -/
def Obligations.ConfigurationIsWrittenOnce : Prop :=
  ∀ s t : State, step s = .next t →
    t.cfg = s.cfg ∧
    (s.phase ≠ .uninit → t.phase ≠ .uninit ∧ t.P = s.P ∧ t.B = s.B ∧ t.N = s.N ∧ t.timerInterval = s.timerInterval ∧
      t.timerArmed = s.timerArmed ∧ t.tableBuilt = s.tableBuilt)

/-- Only INIT, START and STOP move the phase, each by its own move (R200). -/
def Obligations.OnlyLifecycleCommandsMoveThePhase : Prop :=
  ∀ s t : State, step s = .next t → t.phase ≠ s.phase →
    ∃ c rest i, s.pending = c :: rest ∧ commandInstr c = some i ∧
      ((∃ p b n, i = .init p b n ∧ s.phase = .uninit ∧ t.phase = .ready) ∨
       (i = .start ∧ s.phase = .ready ∧ t.phase = .running) ∨
       (i = .stop ∧ s.phase = .running ∧ t.phase = .ready))

/-- The mark of a refused operation is set by the first refusal and never cleared (R32). -/
def Obligations.FirstRefusalMarksTheRun : Prop :=
  ∀ (s t : State) (r : RefusalReason), step s = .next t → s.refused = some r → t.refused = some r

/-- The buffer is written by HOST's primitives only, one byte at a time inside the buffer: no other step changes a byte
(R28, R53). -/
def Obligations.OnlyPrimitivesWriteTheBuffer : Prop :=
  ∀ s t : State, step s = .next t →
    t.fb = s.fb ∨
    ∃ c rest i a f, s.pending = c :: rest ∧ commandInstr c = some i ∧ byteUpdate i = some (a, f) ∧
      s.phase ≠ .uninit ∧ a < s.P * s.B * s.N ∧ t.fb.read a = f (s.fb.read a) ∧ ∀ x, x ≠ a → t.fb.read x = s.fb.read x

/-- The cursor is the scheduler's: only a TICK and a START write it (R41). -/
def Obligations.OnlySchedulerAndStartMoveTheCursor : Prop :=
  ∀ s t : State, step s = .next t →
    t.cursor = s.cursor ∨
    ∃ c rest, s.pending = c :: rest ∧
      (commandInstr c = some .tick ∨ (commandInstr c = some .start ∧ t.cursor = (0, 0, 0)))

/-- In every state a step has no next state only where the spec gives none: a TICK with the timer
disabled, a command inside a transition that is neither its next read nor one of FBSET, FBCLR, FBWR, which R58 admits
there, or a read outside a transition (logs 6 and 7). There is no fault. -/
def Obligations.EveryEnabledStepCompletes : Prop :=
  ∀ s : State,
    (∃ t, step s = .next t) ∨
    (∃ c rest, s.pending = c :: rest ∧
      ((commandInstr c = some .tick ∧ ¬ (s.phase = .running ∧ s.timerEnabled = true)) ∨
       (s.streaming.isSome = true ∧ c ≠ .nextRead ∧ ∀ i, commandInstr c = some i → isBufferPrimitive i = false) ∨
       (s.streaming = none ∧ c = .nextRead)))

/-! ### Configurations, and what stands beside the statements above -/

/-- R10 with R8, R127, R230 and U1: what every configuration that can be built satisfies; that it includes the part of R127
and R129 that does not depend on `P`, `B` and `N` is log 13. -/
def Obligations.BuiltConfigurationsAreWellFormed : Prop :=
  ∀ c : Config,
    13 ≤ c.width ∧ c.dataPins.length = 8 ∧ c.ownedPins.length = 13 ∧ c.ownedPins.Nodup ∧
    (∀ i ∈ c.ownedPins, i < c.width) ∧ 1 ≤ c.chips ∧
    (∀ P, 1 ≤ P → P ≤ 6 → 1 ≤ c.baseInterval / 2 ^ P) ∧
    (∀ x y, x < c.geometry.width → y < c.geometry.height →
      c.pixelBank y < 4 ∧ ∃ k, k < 8 ∧ c.pixelBit y = BitVec.twoPow 8 k) ∧
    (c.geometry.gamma = none → 1 ≤ c.geometry.chBits) ∧
    (∀ t, c.geometry.gamma = some t → t.length = 2 ^ c.geometry.chBits ∧ t.Pairwise (· ≤ ·) ∧
      ∀ v : BitVec c.geometry.chBits, t[v.toNat]? = some (c.geometry.corrected v))

/-- R264: with a geometry that does not keep a pixel's byte inside its slice SETPIX's write of that byte is refused F6, and
lands in no other slice: the expansion completes, its refusal is F6 and nothing but bytes of the pixel's own slices
changes. The refused write's address is the model's choice (log 13). -/
def Obligations.SetPixelOutsideTheSliceIsRefused : Prop :=
  ∀ (s : State) (x y : Nat) (k : Colour s.cfg.geometry.chBits), s.phase ≠ .uninit → 0 < s.P →
    x < s.cfg.geometry.width → y < s.cfg.geometry.height →
    ∃ fb mark, execAll (s.setPixelOps x y k) s = .next { s with fb := fb, refused := mark } ∧
      ((∃ ch ∈ k.channels, s.B ≤ s.cfg.pixelBank y ∨ s.N ≤ s.cfg.pixelOffset x y + ch.1 * 16) →
        mark = markRefused s.refused .bufferAddressOutOfRange) ∧
      ((∀ ch ∈ k.channels, s.cfg.pixelBank y < s.B ∧ s.cfg.pixelOffset x y + ch.1 * 16 < s.N) → mark = s.refused) ∧
      ∀ a, fb.read a ≠ s.fb.read a →
        ∃ d, d < s.P ∧ ∃ ch ∈ k.channels, s.cfg.pixelBank y < s.B ∧ s.cfg.pixelOffset x y + ch.1 * 16 < s.N ∧
          a = fbAddress s.B s.N d (s.cfg.pixelBank y) (s.cfg.pixelOffset x y + ch.1 * 16)

/-- The same as `ControlLinesDoNotDependOnTheBuffer` with `FB_INTERLEAVE` true (derived in R160): the TICK reads no byte at
all, and each read of the transition shows the buffer on the data lines only. The cut into steps is log 6. -/
def Obligations.InterleavedControlLinesDoNotDependOnTheBuffer : Prop :=
  ∀ (s : State) (fb : Memory), s.cfg.fbInterleave = true →
    (s.phase = .running → s.timerEnabled = true →
      ∃ (b p : Nat) (c : BitVec 8) (q : Pins s.cfg.width) (st : Option (Streaming s.cfg.width)),
        exec .tick s = .next { s with bank := b, plane := p, subcount := c, pins := q, streaming := st } ∧
        exec .tick { s with fb := fb } =
          .next { s with fb := fb, bank := b, plane := p, subcount := c, pins := q, streaming := st }) ∧
    (∀ rest, s.streaming.isSome = true → s.pending = .nextRead :: rest →
      ∃ (q r : Pins s.cfg.width) (st : Option (Streaming s.cfg.width)),
        step s = .next { s with pending := rest, pins := q, streaming := st } ∧
        step { s with fb := fb } = .next { s with fb := fb, pending := rest, pins := r, streaming := st } ∧
        q.emitted.map (fun w => w &&& ~~~s.cfg.dataMask) = r.emitted.map (fun w => w &&& ~~~s.cfg.dataMask))
end

