-- ==== Sys2Proof/Laws/Memory.lean ====
section
/-! SUPPORT. The frame buffer's bytes: a read after a write, and that every memory operation keeps the canonical form. -/

namespace Sys2Proof.Machine

theorem Memory.read_erase (m : Memory) (a x : Nat) :
    (Memory.erase m a).read x = if x = a then Memory.unlisted else m.read x := by
  induction m with
  | nil => simp [Memory.erase, Memory.read]
  | cons c m ih =>
    simp only [Memory.erase] at ih ⊢
    by_cases hc : c.1 = a
    · have : (c.1 != a) = false := by simp [hc]
      rw [List.filter_cons_of_neg (by simp [hc]), ih]
      by_cases hx : x = a
      · simp [hx]
      · have : ¬ c.1 = x := by omega
        simp [hx, Memory.read, this]
    · rw [List.filter_cons_of_pos (by simp [hc])]
      by_cases hx : c.1 = x
      · have : ¬ x = a := by omega
        simp [Memory.read, hx, this]
      · simp [Memory.read, hx, ih]

theorem Memory.read_insert (m : Memory) (a : Nat) (v : Byte) (x : Nat) (h : ∀ c ∈ m, c.1 ≠ a) :
    (Memory.insert a v m).read x = if x = a then v else m.read x := by
  induction m with
  | nil =>
    by_cases hx : x = a
    · simp [Memory.insert, Memory.read, hx]
    · have : ¬ a = x := by omega
      simp [Memory.insert, Memory.read, hx, this]
  | cons c m ih =>
    have hc : c.1 ≠ a := h c (by simp)
    have ih := ih (fun d hd => h d (by simp [hd]))
    by_cases hlt : a < c.1
    · by_cases hx : x = a
      · simp [Memory.insert, hlt, Memory.read, hx]
      · have : ¬ a = x := by omega
        simp [Memory.insert, hlt, Memory.read, hx, this]
    · by_cases hx : c.1 = x
      · have : ¬ x = a := by omega
        rw [Memory.insert, if_neg hlt]
        simp [Memory.read, hx, this]
      · simp [Memory.insert, hlt, Memory.read, hx, ih]

theorem Memory.erase_ne (m : Memory) (a : Nat) : ∀ c ∈ Memory.erase m a, c.1 ≠ a := by
  intro c hc
  simpa [Memory.erase] using (List.mem_filter.mp hc).2

/-- A byte read after a write (R59): the written one at its address, every other as before. -/
theorem Memory.read_write (m : Memory) (a : Nat) (v : Byte) (x : Nat) :
    (m.write a v).read x = if x = a then v else m.read x := by
  unfold Memory.write
  split
  · next h => simp [Memory.read_erase, h]
  · rw [Memory.read_insert _ _ _ _ (Memory.erase_ne m a), Memory.read_erase]
    split <;> simp_all

theorem Memory.wf_cons (c : Host.Cell) (m : Memory) :
    Memory.wf (c :: m) = true ↔ c.2 ≠ Memory.unlisted ∧ (∀ d ∈ m, c.1 < d.1) ∧ Memory.wf m = true := by
  simp [Memory.wf, List.all_eq_true, and_assoc]

theorem Memory.erase_wf {m : Memory} (a : Nat) (h : m.wf = true) : (m.erase a).wf = true := by
  induction m with
  | nil => exact h
  | cons c m ih =>
    rw [Memory.wf_cons] at h
    by_cases hc : c.1 = a
    · have : Memory.erase (c :: m) a = Memory.erase m a := by simp [Memory.erase, hc]
      exact this ▸ ih h.2.2
    · have : Memory.erase (c :: m) a = c :: Memory.erase m a := by simp [Memory.erase, hc]
      rw [this, Memory.wf_cons]
      exact ⟨h.1, fun d hd => h.2.1 d (List.mem_filter.mp hd).1, ih h.2.2⟩

theorem Memory.mem_insert {m : Memory} {a : Nat} {v : Byte} {d : Host.Cell} (h : d ∈ Memory.insert a v m) :
    d = (a, v) ∨ d ∈ m := by
  induction m with
  | nil => simpa [Memory.insert] using h
  | cons c m ih =>
    unfold Memory.insert at h
    split at h
    · simpa using h
    · rcases List.mem_cons.mp h with rfl | h
      · simp
      · rcases ih h with rfl | h <;> simp_all

theorem Memory.insert_wf {m : Memory} {a : Nat} {v : Byte} (hv : v ≠ Memory.unlisted) (hne : ∀ c ∈ m, c.1 ≠ a)
    (h : m.wf = true) : (Memory.insert a v m).wf = true := by
  induction m with
  | nil => simpa [Memory.insert, Memory.wf] using hv
  | cons c m ih =>
    have hc := (Memory.wf_cons c m).mp h
    have hca := hne c (by simp)
    unfold Memory.insert
    split
    · next hlt =>
      rw [Memory.wf_cons]
      refine ⟨hv, fun d hd => ?_, h⟩
      rcases List.mem_cons.mp hd with rfl | hd
      · exact hlt
      · exact Nat.lt_trans hlt (hc.2.1 d hd)
    · next hlt =>
      rw [Memory.wf_cons]
      refine ⟨hc.1, fun d hd => ?_, ih (fun d hd => hne d (by simp [hd])) hc.2.2⟩
      rcases Memory.mem_insert hd with rfl | hd
      · show c.1 < a
        omega
      · exact hc.2.1 d hd

/-- A write keeps the canonical form. -/
theorem Memory.write_wf {m : Memory} (a : Nat) (v : Byte) (h : m.wf = true) : (m.write a v).wf = true := by
  unfold Memory.write
  split
  · exact Memory.erase_wf a h
  · next hv => exact Memory.insert_wf hv (Memory.erase_ne m a) (Memory.erase_wf a h)

/-- Reset lists nothing. -/
theorem Memory.reset_wf : State.reset.fb.wf = true := rfl

end Sys2Proof.Machine
end

