-- ==== Sys2Proof/Laws/Masks.lean ====
section
/-! SUPPORT. Port words bit by bit: each mask and table word says which pins it sets, and the thirteen pins are distinct
(spec/00_scope.md R10, R15; spec/40_channel_map.md R112). -/

namespace Sys2Proof

theorem Config.wf_facts (c : Config) :
    13 ≤ c.width ∧ c.dataPins.length = 8 ∧ (∀ i ∈ c.ownedPins, i < c.width) ∧ c.ownedPins.Nodup ∧ 1 ≤ c.chips ∧
    64 ≤ c.baseInterval ∧ c.geometry.wellFormed = true := by
  have h := c.wf
  simp only [Params.wellFormed, Bool.and_eq_true, decide_eq_true_eq, List.all_eq_true] at h
  obtain ⟨⟨⟨⟨⟨⟨h1, h2⟩, h3⟩, h4⟩, h5⟩, h6⟩, h7⟩ := h
  exact ⟨h1, h2, h3, h4, h5, h6, h7⟩

theorem Config.dataPins_length (c : Config) : c.dataPins.length = 8 := c.wf_facts.2.1
theorem Config.chips_pos (c : Config) : 1 ≤ c.chips := c.wf_facts.2.2.2.2.1
theorem Config.baseInterval_ge (c : Config) : 64 ≤ c.baseInterval := c.wf_facts.2.2.2.2.2.1
theorem Config.geometry_wf (c : Config) : c.geometry.wellFormed = true := c.wf_facts.2.2.2.2.2.2

theorem Config.dataPin_lt (c : Config) {i : Nat} (h : i ∈ c.dataPins) : i < c.width :=
  c.wf_facts.2.2.1 i (by simp [Params.ownedPins, h])

theorem Config.dataPins_nodup (c : Config) : c.dataPins.Nodup :=
  (List.nodup_append.mp c.wf_facts.2.2.2.1).1

theorem Config.controlPin_lt (c : Config) {i : Nat} (h : i ∈ c.controlPins) : i < c.width :=
  c.wf_facts.2.2.1 i (by simp [Params.ownedPins, h])

/-- No data pin is a control pin. -/
theorem Config.dataPin_ne (c : Config) {i j : Nat} (hi : i ∈ c.dataPins) (hj : j ∈ c.controlPins) : i ≠ j :=
  (List.nodup_append.mp c.wf_facts.2.2.2.1).2.2 i hi j hj

theorem Config.controlPins_nodup (c : Config) : c.controlPins.Nodup :=
  (List.nodup_append.mp c.wf_facts.2.2.2.1).2.1

/-- The ten inequalities between the control pins. -/
theorem Config.controlPins_ne (c : Config) :
    c.clkPin ≠ c.latPin ∧ c.clkPin ≠ c.oePin ∧ c.clkPin ≠ c.a0Pin ∧ c.clkPin ≠ c.a1Pin ∧ c.latPin ≠ c.oePin ∧
    c.latPin ≠ c.a0Pin ∧ c.latPin ≠ c.a1Pin ∧ c.oePin ≠ c.a0Pin ∧ c.oePin ≠ c.a1Pin ∧ c.a0Pin ≠ c.a1Pin := by
  have h := c.controlPins_nodup
  simp only [Params.controlPins, List.nodup_cons, List.mem_cons, List.not_mem_nil, or_false, not_or] at h
  obtain ⟨⟨h1, h2, h3, h4⟩, ⟨h5, h6, h7⟩, ⟨h8, h9⟩, h10, -⟩ := h
  exact ⟨h1, h2, h3, h4, h5, h6, h7, h8, h9, h10⟩

/-- Data lines and control lines apart, in the form the bit proofs use. -/
theorem Config.control_not_data (c : Config) :
    c.clkPin ∉ c.dataPins ∧ c.latPin ∉ c.dataPins ∧ c.oePin ∉ c.dataPins ∧ c.a0Pin ∉ c.dataPins ∧
    c.a1Pin ∉ c.dataPins := by
  refine ⟨?_, ?_, ?_, ?_, ?_⟩ <;> exact fun h => c.dataPin_ne h (by simp [Params.controlPins]) rfl

/-! ### Bits -/

theorem getLsbD_andNot {W : Nat} (x m : BitVec W) (i : Nat) :
    (x &&& ~~~m).getLsbD i = (x.getLsbD i && !m.getLsbD i) := by
  rw [BitVec.getLsbD_and, BitVec.getLsbD_not]
  by_cases h : i < W
  · simp [h]
  · simp [BitVec.getLsbD_of_ge x i (by omega)]

theorem getLsbD_pin {W pin : Nat} (h : pin < W) (i : Nat) :
    (BitVec.twoPow W pin).getLsbD i = decide (i = pin) := by
  rw [BitVec.getLsbD_twoPow]
  by_cases hi : i = pin
  · simp [hi, h]
  · have : ¬ pin = i := fun e => hi e.symm
    simp [hi, this]

theorem Config.clk_bit (c : Config) (i : Nat) : c.clk.getLsbD i = decide (i = c.clkPin) :=
  getLsbD_pin (c.controlPin_lt (by simp [Params.controlPins])) i
theorem Config.lat_bit (c : Config) (i : Nat) : c.lat.getLsbD i = decide (i = c.latPin) :=
  getLsbD_pin (c.controlPin_lt (by simp [Params.controlPins])) i
theorem Config.oe_bit (c : Config) (i : Nat) : c.oe.getLsbD i = decide (i = c.oePin) :=
  getLsbD_pin (c.controlPin_lt (by simp [Params.controlPins])) i
theorem Config.a0_bit (c : Config) (i : Nat) : c.a0.getLsbD i = decide (i = c.a0Pin) :=
  getLsbD_pin (c.controlPin_lt (by simp [Params.controlPins])) i
theorem Config.a1_bit (c : Config) (i : Nat) : c.a1.getLsbD i = decide (i = c.a1Pin) :=
  getLsbD_pin (c.controlPin_lt (by simp [Params.controlPins])) i

theorem Config.addrMask_bit (c : Config) (i : Nat) :
    c.addrMask.getLsbD i = (decide (i = c.a0Pin) || decide (i = c.a1Pin)) := by
  simp [Config.addrMask, c.a0_bit, c.a1_bit]

theorem Config.addr_bit (c : Config) (b i : Nat) :
    (c.addr b).getLsbD i = ((b.testBit 0 && decide (i = c.a0Pin)) || (b.testBit 1 && decide (i = c.a1Pin))) := by
  simp only [Config.addr, BitVec.getLsbD_or]
  cases b.testBit 0 <;> cases b.testBit 1 <;> simp [c.a0_bit, c.a1_bit]

theorem spreadBits_bit {W : Nat} (v : Byte) (k : Nat) (pins : List Nat) (h : ∀ j ∈ pins, j < W) (i : Nat) :
    (spreadBits W v k pins).getLsbD i = true ↔ ∃ j, pins[j]? = some i ∧ v.getLsbD (k + j) = true := by
  induction pins generalizing k with
  | nil => simp [spreadBits]
  | cons pin pins ih =>
    have hpin := h pin (by simp)
    have ih := ih (k + 1) (fun j hj => h j (by simp [hj]))
    rw [spreadBits, BitVec.getLsbD_or, Bool.or_eq_true, ih]
    constructor
    · rintro (hb | ⟨j, hj, hv⟩)
      · refine ⟨0, ?_⟩
        split at hb
        · next hv =>
          rw [getLsbD_pin hpin] at hb
          simp_all
        · simp at hb
      · exact ⟨j + 1, by simpa using hj, by rw [show k + (j + 1) = k + 1 + j by omega]; exact hv⟩
    · rintro ⟨j, hj, hv⟩
      cases j with
      | zero =>
        left
        simp only [List.getElem?_cons_zero, Option.some.injEq] at hj
        simp only [Nat.add_zero] at hv
        subst hj
        simp [hv, hpin]
      | succ j =>
        exact .inr ⟨j, by simpa using hj, by rw [show k + 1 + j = k + (j + 1) by omega]; exact hv⟩

/-- R111: bit `i` of `TABLE[v]` is the byte's bit `k` where `i` is `PIN_D[k]`, and 0 elsewhere. -/
theorem Config.tableWord_bit (c : Config) (v : Byte) (i : Nat) :
    (c.tableWord v).getLsbD i = true ↔ ∃ k, c.dataPins[k]? = some i ∧ v.getLsbD k = true := by
  simpa [Config.tableWord] using spreadBits_bit v 0 c.dataPins (fun j hj => c.dataPin_lt hj) i

theorem Config.tableWord_pin (c : Config) (v : Byte) {k i : Nat} (h : c.dataPins[k]? = some i) :
    (c.tableWord v).getLsbD i = v.getLsbD k := by
  rw [Bool.eq_iff_iff, c.tableWord_bit]
  constructor
  · rintro ⟨j, hj, hv⟩
    obtain ⟨hk, hki⟩ := List.getElem?_eq_some_iff.mp h
    obtain ⟨hj', hji⟩ := List.getElem?_eq_some_iff.mp hj
    have : j = k := (List.Nodup.getElem_inj_iff c.dataPins_nodup).mp (hji.trans hki.symm)
    exact this ▸ hv
  · exact fun hv => ⟨k, h, hv⟩

theorem Config.tableWord_off (c : Config) (v : Byte) {i : Nat} (h : i ∉ c.dataPins) :
    (c.tableWord v).getLsbD i = false := by
  rw [Bool.eq_false_iff]
  intro hb
  obtain ⟨k, hk, -⟩ := (c.tableWord_bit v i).mp hb
  exact h (List.mem_of_getElem? hk)

theorem Config.dataMask_bit (c : Config) (i : Nat) : c.dataMask.getLsbD i = decide (i ∈ c.dataPins) := by
  by_cases h : i ∈ c.dataPins
  · obtain ⟨k, hk, hki⟩ := List.mem_iff_getElem.mp h
    have hk8 : k < 8 := c.dataPins_length ▸ hk
    rw [Config.dataMask, c.tableWord_pin _ (List.getElem?_eq_some_iff.mpr ⟨hk, hki⟩)]
    have : ∀ k < 8, (0xFF#8).getLsbD k = true := by decide
    simp [h, this k hk8]
  · rw [Config.dataMask, c.tableWord_off _ h]
    simp [h]

/-- `TABLE[v]` has data bits only. -/
theorem Config.tableWord_bit_le (c : Config) (v : Byte) (i : Nat) :
    (c.tableWord v).getLsbD i = ((c.tableWord v).getLsbD i && decide (i ∈ c.dataPins)) := by
  by_cases h : i ∈ c.dataPins
  · simp [h]
  · simp [c.tableWord_off v h]

theorem Config.ownedMask_bit (c : Config) (i : Nat) : c.ownedMask.getLsbD i = decide (i ∈ c.ownedPins) := by
  simp only [Config.ownedMask, BitVec.getLsbD_or, c.dataMask_bit, c.clk_bit, c.lat_bit, c.oe_bit, c.addrMask_bit]
  by_cases h : i ∈ c.dataPins
  · simp [h, Params.ownedPins]
  · simp [h, Params.ownedPins, Params.controlPins, Bool.or_assoc]

/-- A line is one of the five control lines, a data line, or unowned; with the inequalities each case brings. -/
theorem Config.line_cases (c : Config) (i : Nat) :
    (i ∈ c.dataPins ∧ i ≠ c.clkPin ∧ i ≠ c.latPin ∧ i ≠ c.oePin ∧ i ≠ c.a0Pin ∧ i ≠ c.a1Pin) ∨
    (i = c.clkPin ∧ i ∉ c.dataPins ∧ i ≠ c.latPin ∧ i ≠ c.oePin ∧ i ≠ c.a0Pin ∧ i ≠ c.a1Pin) ∨
    (i = c.latPin ∧ i ∉ c.dataPins ∧ i ≠ c.clkPin ∧ i ≠ c.oePin ∧ i ≠ c.a0Pin ∧ i ≠ c.a1Pin) ∨
    (i = c.oePin ∧ i ∉ c.dataPins ∧ i ≠ c.clkPin ∧ i ≠ c.latPin ∧ i ≠ c.a0Pin ∧ i ≠ c.a1Pin) ∨
    (i = c.a0Pin ∧ i ∉ c.dataPins ∧ i ≠ c.clkPin ∧ i ≠ c.latPin ∧ i ≠ c.oePin ∧ i ≠ c.a1Pin) ∨
    (i = c.a1Pin ∧ i ∉ c.dataPins ∧ i ≠ c.clkPin ∧ i ≠ c.latPin ∧ i ≠ c.oePin ∧ i ≠ c.a0Pin) ∨
    (i ∉ c.ownedPins ∧ i ∉ c.dataPins ∧ i ≠ c.clkPin ∧ i ≠ c.latPin ∧ i ≠ c.oePin ∧ i ≠ c.a0Pin ∧ i ≠ c.a1Pin) := by
  obtain ⟨h1, h2, h3, h4, h5, h6, h7, h8, h9, h10⟩ := c.controlPins_ne
  obtain ⟨d1, d2, d3, d4, d5⟩ := c.control_not_data
  by_cases hd : i ∈ c.dataPins
  · exact .inl ⟨hd, fun h => d1 (h ▸ hd), fun h => d2 (h ▸ hd), fun h => d3 (h ▸ hd), fun h => d4 (h ▸ hd),
      fun h => d5 (h ▸ hd)⟩
  by_cases e1 : i = c.clkPin
  · subst e1; simp [*]
  by_cases e2 : i = c.latPin
  · subst e2; simp [*]
  by_cases e3 : i = c.oePin
  · subst e3; simp [*]
  by_cases e4 : i = c.a0Pin
  · subst e4; simp [*]
  by_cases e5 : i = c.a1Pin
  · subst e5; simp [*]
  · simp [*, Params.ownedPins, Params.controlPins]

/-- Two port words are equal when they agree on the data lines, the five control lines and every unowned bit. -/
theorem Config.word_ext (c : Config) {x y : PortWord c.width} (h : ∀ i, x.getLsbD i = y.getLsbD i) : x = y :=
  BitVec.eq_of_getLsbD_eq (fun i _ => h i)

end Sys2Proof
end

