-- ==== Sys2Proof/Laws/State.lean ====
section
/-! SUPPORT. One lemma per field for each named update of the state, and the port primitives' effect on each register. -/

namespace Sys2Proof.Machine

section refuse
variable (r : RefusalReason) (s : State)

@[simp] theorem refuse_cfg : (refuse r s).cfg = s.cfg := rfl
@[simp] theorem refuse_P : (refuse r s).P = s.P := rfl
@[simp] theorem refuse_B : (refuse r s).B = s.B := rfl
@[simp] theorem refuse_N : (refuse r s).N = s.N := rfl
@[simp] theorem refuse_bank : (refuse r s).bank = s.bank := rfl
@[simp] theorem refuse_plane : (refuse r s).plane = s.plane := rfl
@[simp] theorem refuse_subcount : (refuse r s).subcount = s.subcount := rfl
@[simp] theorem refuse_pins : (refuse r s).pins = s.pins := rfl
@[simp] theorem refuse_tableBuilt : (refuse r s).tableBuilt = s.tableBuilt := rfl
@[simp] theorem refuse_fb : (refuse r s).fb = s.fb := rfl
@[simp] theorem refuse_timerArmed : (refuse r s).timerArmed = s.timerArmed := rfl
@[simp] theorem refuse_timerEnabled : (refuse r s).timerEnabled = s.timerEnabled := rfl
@[simp] theorem refuse_timerInterval : (refuse r s).timerInterval = s.timerInterval := rfl
@[simp] theorem refuse_phase : (refuse r s).phase = s.phase := rfl
@[simp] theorem refuse_refused : (refuse r s).refused = markRefused s.refused r := rfl
@[simp] theorem refuse_pending : (refuse r s).pending = s.pending := rfl
@[simp] theorem refuse_streaming : (refuse r s).streaming = s.streaming := rfl
end refuse

@[simp] theorem markRefused_none (r : RefusalReason) : markRefused none r = some r := rfl
@[simp] theorem markRefused_some (q r : RefusalReason) : markRefused (some q) r = some q := rfl

section withPins
variable (s : State) (p : Pins s.cfg.width)

@[simp] theorem withPins_cfg : (s.withPins p).cfg = s.cfg := rfl
@[simp] theorem withPins_P : (s.withPins p).P = s.P := rfl
@[simp] theorem withPins_B : (s.withPins p).B = s.B := rfl
@[simp] theorem withPins_N : (s.withPins p).N = s.N := rfl
@[simp] theorem withPins_bank : (s.withPins p).bank = s.bank := rfl
@[simp] theorem withPins_plane : (s.withPins p).plane = s.plane := rfl
@[simp] theorem withPins_subcount : (s.withPins p).subcount = s.subcount := rfl
@[simp] theorem withPins_pins : (s.withPins p).pins = p := rfl
@[simp] theorem withPins_tableBuilt : (s.withPins p).tableBuilt = s.tableBuilt := rfl
@[simp] theorem withPins_fb : (s.withPins p).fb = s.fb := rfl
@[simp] theorem withPins_timerArmed : (s.withPins p).timerArmed = s.timerArmed := rfl
@[simp] theorem withPins_timerEnabled : (s.withPins p).timerEnabled = s.timerEnabled := rfl
@[simp] theorem withPins_timerInterval : (s.withPins p).timerInterval = s.timerInterval := rfl
@[simp] theorem withPins_phase : (s.withPins p).phase = s.phase := rfl
@[simp] theorem withPins_refused : (s.withPins p).refused = s.refused := rfl
@[simp] theorem withPins_pending : (s.withPins p).pending = s.pending := rfl
@[simp] theorem withPins_streaming : (s.withPins p).streaming = s.streaming := rfl
end withPins

section withFb
variable (s : State) (m : Memory)

@[simp] theorem withFb_cfg : (s.withFb m).cfg = s.cfg := rfl
@[simp] theorem withFb_P : (s.withFb m).P = s.P := rfl
@[simp] theorem withFb_B : (s.withFb m).B = s.B := rfl
@[simp] theorem withFb_N : (s.withFb m).N = s.N := rfl
@[simp] theorem withFb_bank : (s.withFb m).bank = s.bank := rfl
@[simp] theorem withFb_plane : (s.withFb m).plane = s.plane := rfl
@[simp] theorem withFb_subcount : (s.withFb m).subcount = s.subcount := rfl
@[simp] theorem withFb_pins : (s.withFb m).pins = s.pins := rfl
@[simp] theorem withFb_tableBuilt : (s.withFb m).tableBuilt = s.tableBuilt := rfl
@[simp] theorem withFb_fb : (s.withFb m).fb = m := rfl
@[simp] theorem withFb_timerArmed : (s.withFb m).timerArmed = s.timerArmed := rfl
@[simp] theorem withFb_timerEnabled : (s.withFb m).timerEnabled = s.timerEnabled := rfl
@[simp] theorem withFb_timerInterval : (s.withFb m).timerInterval = s.timerInterval := rfl
@[simp] theorem withFb_phase : (s.withFb m).phase = s.phase := rfl
@[simp] theorem withFb_refused : (s.withFb m).refused = s.refused := rfl
@[simp] theorem withFb_pending : (s.withFb m).pending = s.pending := rfl
@[simp] theorem withFb_streaming : (s.withFb m).streaming = s.streaming := rfl
@[simp] theorem withFb_bufferSize : (s.withFb m).bufferSize = s.bufferSize := rfl
@[simp] theorem withFb_withFb (m' : Memory) : (s.withFb m).withFb m' = s.withFb m' := rfl
@[simp] theorem withFb_self : s.withFb s.fb = s := rfl
end withFb

section withCursor
variable (s : State) (b p : Nat) (c : BitVec 8)

@[simp] theorem withCursor_cfg : (s.withCursor b p c).cfg = s.cfg := rfl
@[simp] theorem withCursor_P : (s.withCursor b p c).P = s.P := rfl
@[simp] theorem withCursor_B : (s.withCursor b p c).B = s.B := rfl
@[simp] theorem withCursor_N : (s.withCursor b p c).N = s.N := rfl
@[simp] theorem withCursor_bank : (s.withCursor b p c).bank = b := rfl
@[simp] theorem withCursor_plane : (s.withCursor b p c).plane = p := rfl
@[simp] theorem withCursor_subcount : (s.withCursor b p c).subcount = c := rfl
@[simp] theorem withCursor_pins : (s.withCursor b p c).pins = s.pins := rfl
@[simp] theorem withCursor_tableBuilt : (s.withCursor b p c).tableBuilt = s.tableBuilt := rfl
@[simp] theorem withCursor_fb : (s.withCursor b p c).fb = s.fb := rfl
@[simp] theorem withCursor_timerArmed : (s.withCursor b p c).timerArmed = s.timerArmed := rfl
@[simp] theorem withCursor_timerEnabled : (s.withCursor b p c).timerEnabled = s.timerEnabled := rfl
@[simp] theorem withCursor_timerInterval : (s.withCursor b p c).timerInterval = s.timerInterval := rfl
@[simp] theorem withCursor_phase : (s.withCursor b p c).phase = s.phase := rfl
@[simp] theorem withCursor_refused : (s.withCursor b p c).refused = s.refused := rfl
@[simp] theorem withCursor_pending : (s.withCursor b p c).pending = s.pending := rfl
@[simp] theorem withCursor_streaming : (s.withCursor b p c).streaming = s.streaming := rfl
end withCursor

@[simp] theorem timerRestart_eq (s : State) : timerRestart s = s := rfl

section pins
variable {W : Nat} (p : Pins W) (w : PortWord W)

@[simp] theorem Pins.portRead_eq : p.portRead = p.port := rfl
@[simp] theorem Pins.portWrite_port : (p.portWrite w).port = w := rfl
@[simp] theorem Pins.portWrite_dir : (p.portWrite w).dir = p.dir := rfl
@[simp] theorem Pins.portWrite_emitted : (p.portWrite w).emitted = w :: p.emitted := rfl
@[simp] theorem Pins.portSet_port : (p.portSet w).port = p.port ||| w := rfl
@[simp] theorem Pins.portSet_dir : (p.portSet w).dir = p.dir := rfl
@[simp] theorem Pins.portSet_emitted : (p.portSet w).emitted = (p.port ||| w) :: p.emitted := rfl
@[simp] theorem Pins.portClear_port : (p.portClear w).port = p.port &&& ~~~w := rfl
@[simp] theorem Pins.portClear_dir : (p.portClear w).dir = p.dir := rfl
@[simp] theorem Pins.portClear_emitted : (p.portClear w).emitted = (p.port &&& ~~~w) :: p.emitted := rfl
@[simp] theorem Pins.driveOut_port : (p.driveOut w).port = p.port := rfl
@[simp] theorem Pins.driveOut_dir : (p.driveOut w).dir = p.dir ||| w := rfl
@[simp] theorem Pins.driveOut_emitted : (p.driveOut w).emitted = p.emitted := rfl
end pins

end Sys2Proof.Machine
end

