-- ==== Sys2Proof/Laws/Sequences.lean ====
section
/-! SUPPORT. What each port sequence emits and leaves, once for each: streaming, the end of a transition, a transition,
one control bit, one chip, one bank, all banks. -/

namespace Sys2Proof.Machine

@[simp] theorem loopFor_zero {α : Type} (f : Nat → α → α) (x : α) : loopFor f 0 x = x := rfl
@[simp] theorem loopFor_succ {α : Type} (f : Nat → α → α) (n : Nat) (x : α) :
    loopFor f (n + 1) x = f n (loopFor f n x) := rfl

/-! ### Streaming -/

@[simp] theorem streamByte_dir (c : Config) (base : PortWord c.width) (v : Byte) (p : Pins c.width) :
    (streamByte c base v p).dir = p.dir := rfl
@[simp] theorem streamByte_port (c : Config) (base : PortWord c.width) (v : Byte) (p : Pins c.width) :
    (streamByte c base v p).port = base ||| c.tableWord v ||| c.clk := rfl
@[simp] theorem streamByte_emitted (c : Config) (base : PortWord c.width) (v : Byte) (p : Pins c.width) :
    (streamByte c base v p).emitted =
      (base ||| c.tableWord v ||| c.clk) :: (base ||| c.tableWord v) :: p.emitted := rfl

/-- The bytes streamed by the first `n` turns of the loop. -/
def bytesFrom (fb : Memory) (sb n : Nat) : List Byte := (List.range n).map (fun i => fb.read (sb + i))

theorem sliceBytes_eq (fb : Memory) (P B N p b : Nat) : sliceBytes fb P B N p b = bytesFrom fb (sbase P B N p b) N := rfl

theorem bytesFrom_succ (fb : Memory) (sb n : Nat) : bytesFrom fb sb (n + 1) = bytesFrom fb sb n ++ [fb.read (sb + n)] := by
  simp [bytesFrom, List.range_succ]

theorem streamWords_append (c : Config) (base : PortWord c.width) (vs us : List Byte) :
    streamWords c base (vs ++ us) = streamWords c base vs ++ streamWords c base us := by
  simp [streamWords]

theorem streamWords_length (c : Config) (base : PortWord c.width) (vs : List Byte) :
    (streamWords c base vs).length = 2 * vs.length := by
  simp [streamWords, List.length_flatMap, Nat.mul_comm]

/-- Streaming (R148): `DIR` stays, the words are those of the bytes in order, the port ends at the last one. -/
theorem streamSlice_spec (c : Config) (base : PortWord c.width) (fb : Memory) (sb n : Nat) (p : Pins c.width) :
    (streamSlice c base fb sb n p).dir = p.dir ∧
    (streamSlice c base fb sb n p).emitted = (streamWords c base (bytesFrom fb sb n)).reverse ++ p.emitted ∧
    (0 < n → (streamSlice c base fb sb n p).port = base ||| c.tableWord (fb.read (sb + (n - 1))) ||| c.clk) := by
  unfold streamSlice
  induction n with
  | zero => simp [bytesFrom, streamWords]
  | succ n ih =>
    obtain ⟨hd, he, -⟩ := ih
    refine ⟨by simp [hd], ?_, by simp⟩
    rw [loopFor_succ, streamByte_emitted, he, bytesFrom_succ, streamWords_append]
    simp [streamWords]

/-- The end of a transition (R149 to R152). -/
theorem finishTransition_spec (c : Config) (b : Nat) (p : Pins c.width) :
    (finishTransition c b p).dir = p.dir ∧
    (finishTransition c b p).emitted = (closingWords c b (p.port &&& ~~~c.clk)).reverse ++ p.emitted ∧
    (finishTransition c b p).port = ((p.port &&& ~~~c.clk &&& ~~~c.addrMask) ||| c.addr b) &&& ~~~c.lat &&& ~~~c.oe := by
  have h : ∀ x : PortWord c.width, (x ||| c.lat) &&& ~~~c.lat = x &&& ~~~c.lat := by
    intro x
    apply c.word_ext
    intro i
    simp only [getLsbD_andNot, BitVec.getLsbD_or]
    cases x.getLsbD i <;> cases c.lat.getLsbD i <;> rfl
  refine ⟨rfl, ?_, ?_⟩
  · simp [finishTransition, selectBank, closingWords, h]
  · simp [finishTransition, selectBank, h]

/-- The sampled base has the clock and the data lines low (R147). -/
theorem sampledBase_bit (c : Config) (port : PortWord c.width) (i : Nat) :
    (sampledBase c port).getLsbD i = (port.getLsbD i && !decide (i ∈ c.dataPins) && !decide (i = c.clkPin)) := by
  rw [sampledBase, getLsbD_andNot, BitVec.getLsbD_or, c.dataMask_bit, c.clk_bit, Bool.not_or, Bool.and_assoc]

/-- Taking the clock low after a rising edge of a word that had it low. -/
theorem clear_clk_of_low (c : Config) {x : PortWord c.width} (h : x.getLsbD c.clkPin = false) :
    (x ||| c.clk) &&& ~~~c.clk = x := by
  apply c.word_ext
  intro i
  simp only [getLsbD_andNot, BitVec.getLsbD_or, c.clk_bit]
  by_cases e : i = c.clkPin
  · subst e; simp [h]
  · simp [e]

theorem streamed_clk_low (c : Config) (port : PortWord c.width) (v : Byte) :
    (sampledBase c port ||| c.tableWord v).getLsbD c.clkPin = false := by
  simp [BitVec.getLsbD_or, sampledBase_bit, c.tableWord_off v c.control_not_data.1]

theorem bytesFrom_getLastD (fb : Memory) (sb n : Nat) (h : 0 < n) :
    (bytesFrom fb sb n).getLastD 0#8 = fb.read (sb + (n - 1)) := by
  obtain ⟨m, rfl⟩ := Nat.exists_eq_succ_of_ne_zero (Nat.pos_iff_ne_zero.mp h)
  simp [bytesFrom_succ]

/-- Steps 3 to 5 on a port whose outputs are off: the words after the first of `transitionWords`, and the port left. -/
theorem stream_and_finish_spec (c : Config) (fb : Memory) (sb n b : Nat) (p : Pins c.width) (hn : 0 < n) :
    let q := finishTransition c b (streamSlice c (sampledBase c p.port) fb sb n p)
    let last := sampledBase c p.port ||| c.tableWord ((bytesFrom fb sb n).getLastD 0#8)
    q.dir = p.dir ∧
    q.emitted = (streamWords c (sampledBase c p.port) (bytesFrom fb sb n) ++ closingWords c b last).reverse ++ p.emitted ∧
    q.port = ((last &&& ~~~c.addrMask) ||| c.addr b) &&& ~~~c.lat &&& ~~~c.oe := by
  obtain ⟨hd, he, hp⟩ := streamSlice_spec c (sampledBase c p.port) fb sb n p
  obtain ⟨fd, fe, fp⟩ := finishTransition_spec c b (streamSlice c (sampledBase c p.port) fb sb n p)
  have hlow := clear_clk_of_low c (streamed_clk_low c p.port (fb.read (sb + (n - 1))))
  refine ⟨fd.trans hd, ?_, ?_⟩
  · rw [fe, he, hp hn, hlow, bytesFrom_getLastD fb sb n hn]
    simp
  · rw [fp, hp hn, hlow, bytesFrom_getLastD fb sb n hn]

/-- A transition in one step (R141, R153): cursor advanced, `2N + 6` words emitted, all else unchanged. -/
theorem transition_spec (s : State) (hi : s.cfg.fbInterleave = false) (hN : 0 < s.N) :
    ∃ p : Pins s.cfg.width,
      transition s = (s.withPins p).withCursor s.nextBank s.nextPlane 0#8 ∧ p.dir = s.pins.dir ∧
      p.emitted = (transitionWords s.cfg s.pins.port s.nextBank s.nextSlice).reverse ++ s.pins.emitted ∧
      p.port = (((sampledBase s.cfg (s.pins.port ||| s.cfg.oe) ||| s.cfg.tableWord (s.nextSlice.getLastD 0#8))
        &&& ~~~s.cfg.addrMask) ||| s.cfg.addr s.nextBank) &&& ~~~s.cfg.lat &&& ~~~s.cfg.oe := by
  obtain ⟨hd, he, hp⟩ := stream_and_finish_spec s.cfg s.fb (sbase s.P s.B s.N s.nextPlane s.nextBank) s.N s.nextBank
    (s.pins.portSet s.cfg.oe) hN
  refine ⟨_, ?_, hd, ?_, hp⟩
  · rw [transition, hi]
    rfl
  · rw [he]
    simp [transitionWords, State.nextSlice, sliceBytes_eq, Pins.portSet_port]

theorem closingWords_length (c : Config) (b : Nat) (x : PortWord c.width) : (closingWords c b x).length = 5 := rfl

/-- `2N + 6` words (R153). -/
theorem transitionWords_length (c : Config) (port : PortWord c.width) (b : Nat) (vs : List Byte) :
    (transitionWords c port b vs).length = 2 * vs.length + 6 := by
  simp [transitionWords, streamWords_length, closingWords_length]

/-! ### The control write -/

theorem bankSetup_bit (c : Config) (port : PortWord c.width) (b i : Nat) :
    (bankSetup c port b).getLsbD i =
      ((port.getLsbD i && !decide (i ∈ c.ownedPins)) || decide (i = c.oePin) ||
        ((b.testBit 0 && decide (i = c.a0Pin)) || (b.testBit 1 && decide (i = c.a1Pin)))) := by
  simp only [bankSetup, BitVec.getLsbD_or, getLsbD_andNot, c.ownedMask_bit, c.oe_bit, c.addr_bit]

/-- The set-up word (R177) only keeps the unowned bits of the port. -/
theorem setupWord_eq (c : Config) (port : PortWord c.width) (b : Nat) : setupWord c port b = bankSetup c port b := by
  apply c.word_ext
  intro i
  simp only [setupWord, bankSetup_bit, BitVec.getLsbD_or, getLsbD_andNot, c.dataMask_bit, c.clk_bit, c.lat_bit, c.oe_bit,
    c.addrMask_bit, c.addr_bit]
  rcases c.line_cases i with h | h | h | h | h | h | h <;>
    simp [h, Params.ownedPins, Params.controlPins]

theorem bankSetup_congr (c : Config) {x y : PortWord c.width} (h : x &&& ~~~c.ownedMask = y &&& ~~~c.ownedMask) (b : Nat) :
    bankSetup c x b = bankSetup c y b := by
  rw [bankSetup, bankSetup, h]

theorem controlData_bit (c : Config) (cw : ControlWord) (j i : Nat) :
    (controlData c cw j).getLsbD i = (cw.getLsbD (15 - j) && decide (i ∈ c.dataPins)) := by
  unfold controlData
  split <;> simp_all [c.dataMask_bit]

theorem controlLatch_bit (c : Config) (chip j i : Nat) :
    (controlLatch c chip j).getLsbD i = (decide (chip + 1 = c.chips ∧ 12 ≤ j) && decide (i = c.latPin)) := by
  unfold controlLatch
  split <;> simp_all [c.lat_bit]

/-- A word whose clock line and unowned bits are those of a set-up word. -/
theorem controlStepWord_bit (c : Config) (port : PortWord c.width) (cw : ControlWord) (b chip j i : Nat) :
    (controlStepWord c (bankSetup c port b) cw chip j).getLsbD i =
      ((bankSetup c port b).getLsbD i || (cw.getLsbD (15 - j) && decide (i ∈ c.dataPins)) ||
        (decide (chip + 1 = c.chips ∧ 12 ≤ j) && decide (i = c.latPin))) := by
  simp only [controlStepWord, BitVec.getLsbD_or, controlData_bit, controlLatch_bit]

theorem controlStepWord_clk_low (c : Config) (port : PortWord c.width) (cw : ControlWord) (b chip j : Nat) :
    (controlStepWord c (bankSetup c port b) cw chip j).getLsbD c.clkPin = false := by
  obtain ⟨h1, h2, h3, h4, -⟩ := c.controlPins_ne
  simp [controlStepWord_bit, bankSetup_bit, c.control_not_data.1, h1, h2, h3, h4, Params.ownedPins, Params.controlPins]

/-- One control bit (R179). -/
theorem shiftControlBit_spec (c : Config) (port : PortWord c.width) (cw : ControlWord) (b chip j : Nat) (p : Pins c.width) :
    (shiftControlBit c (bankSetup c port b) cw chip j p).dir = p.dir ∧
    (shiftControlBit c (bankSetup c port b) cw chip j p).emitted =
      (controlBitWords c (bankSetup c port b) cw chip j).reverse ++ p.emitted ∧
    (shiftControlBit c (bankSetup c port b) cw chip j p).port = controlStepWord c (bankSetup c port b) cw chip j := by
  have h := clear_clk_of_low c (controlStepWord_clk_low c port cw b chip j)
  refine ⟨rfl, ?_, h⟩
  show (_ &&& ~~~c.clk) :: _ :: _ :: p.emitted = _
  simp only [controlBitWords, List.reverse_cons, List.reverse_nil, List.nil_append, List.cons_append]
  exact congrArg (· :: _) h

/-- One chip (R178). -/
theorem shiftControlWord_spec (c : Config) (port : PortWord c.width) (cw : ControlWord) (b chip : Nat) (p : Pins c.width) :
    (shiftControlWord c (bankSetup c port b) cw chip p).dir = p.dir ∧
    (shiftControlWord c (bankSetup c port b) cw chip p).emitted =
      (controlChipWords c (bankSetup c port b) cw chip).reverse ++ p.emitted ∧
    (shiftControlWord c (bankSetup c port b) cw chip p).port = controlStepWord c (bankSetup c port b) cw chip 15 := by
  have key : ∀ n, (loopFor (shiftControlBit c (bankSetup c port b) cw chip) n p).dir = p.dir ∧
      (loopFor (shiftControlBit c (bankSetup c port b) cw chip) n p).emitted =
        ((List.range n).flatMap (controlBitWords c (bankSetup c port b) cw chip)).reverse ++ p.emitted := by
    intro n
    induction n with
    | zero => simp
    | succ n ih =>
      obtain ⟨hd, he, -⟩ := shiftControlBit_spec c port cw b chip n
        (loopFor (shiftControlBit c (bankSetup c port b) cw chip) n p)
      refine ⟨hd.trans ih.1, ?_⟩
      rw [loopFor_succ, he, ih.2, List.range_succ]
      simp
  exact ⟨(key 16).1, (key 16).2, (shiftControlBit_spec c port cw b chip 15 _).2.2⟩

/-- Every chip of a bank's chain. -/
theorem chain_spec (c : Config) (port : PortWord c.width) (cw : ControlWord) (b n : Nat) (p : Pins c.width) :
    (loopFor (shiftControlWord c (bankSetup c port b) cw) n p).dir = p.dir ∧
    (loopFor (shiftControlWord c (bankSetup c port b) cw) n p).emitted =
      ((List.range n).flatMap (controlChipWords c (bankSetup c port b) cw)).reverse ++ p.emitted ∧
    (0 < n → (loopFor (shiftControlWord c (bankSetup c port b) cw) n p).port =
      controlStepWord c (bankSetup c port b) cw (n - 1) 15) := by
  induction n with
  | zero => simp
  | succ n ih =>
    obtain ⟨hd, he, hp⟩ := shiftControlWord_spec c port cw b n (loopFor (shiftControlWord c (bankSetup c port b) cw) n p)
    refine ⟨hd.trans ih.1, ?_, fun _ => hp⟩
    rw [loopFor_succ, he, ih.2.1, List.range_succ]
    simp

/-- The port after the latch of a bank has been taken low (R181). -/
theorem clear_lat_after_chain (c : Config) (port : PortWord c.width) (cw : ControlWord) (b : Nat) :
    controlStepWord c (bankSetup c port b) cw (c.chips - 1) 15 &&& ~~~c.lat = bankSetup c port b ||| controlData c cw 15 := by
  have hC : c.chips - 1 + 1 = c.chips := Nat.sub_add_cancel c.chips_pos
  apply c.word_ext
  intro i
  obtain ⟨h1, -, -, -, h5, h6, h7, -⟩ := c.controlPins_ne
  simp only [getLsbD_andNot, controlStepWord_bit, c.lat_bit, BitVec.getLsbD_or, controlData_bit, bankSetup_bit, hC]
  by_cases e : i = c.latPin
  · subst e
    simp [c.control_not_data.2.1, h5, h6, h7, Params.ownedPins, Params.controlPins]
  · simp [e]

/-- One bank (R177 to R181). -/
theorem writeBankControl_spec (c : Config) (cw : ControlWord) (b : Nat) (p : Pins c.width) :
    (writeBankControl c cw b p).dir = p.dir ∧
    (writeBankControl c cw b p).emitted = (controlBankWords c p.port cw b).reverse ++ p.emitted ∧
    (writeBankControl c cw b p).port = bankSetup c p.port b ||| controlData c cw 15 := by
  obtain ⟨hd, he, hp⟩ := chain_spec c p.port cw b c.chips (p.portWrite (bankSetup c p.port b))
  have hq := (hp c.chips_pos) ▸ clear_lat_after_chain c p.port cw b
  simp only [writeBankControl, Pins.portRead_eq, setupWord_eq]
  refine ⟨hd, ?_, hq⟩
  rw [Pins.portClear_emitted, he, hq]
  simp [controlBankWords]

theorem controlData_owned (c : Config) (port : PortWord c.width) (cw : ControlWord) (b : Nat) :
    (bankSetup c port b ||| controlData c cw 15) &&& ~~~c.ownedMask = port &&& ~~~c.ownedMask := by
  apply c.word_ext
  intro i
  simp only [getLsbD_andNot, BitVec.getLsbD_or, bankSetup_bit, controlData_bit, c.ownedMask_bit]
  rcases c.line_cases i with h | h | h | h | h | h | h <;> simp [h, Params.ownedPins, Params.controlPins]

/-- Every bank (R171, R182): `DIR` stays, the words are those of the banks in order, unowned bits stay, and the port ends
as the last bank's write leaves it. -/
theorem writeControl_spec (c : Config) (cw : ControlWord) (B : Nat) (p : Pins c.width) :
    (writeControl c cw B p).dir = p.dir ∧
    (writeControl c cw B p).emitted = (controlWords c p.port cw B).reverse ++ p.emitted ∧
    (writeControl c cw B p).port &&& ~~~c.ownedMask = p.port &&& ~~~c.ownedMask ∧
    (0 < B → (writeControl c cw B p).port = bankSetup c p.port (B - 1) ||| controlData c cw 15) := by
  unfold writeControl
  induction B with
  | zero => simp [controlWords]
  | succ n ih =>
    obtain ⟨ihd, ihe, ihu, -⟩ := ih
    obtain ⟨hd, he, hp⟩ := writeBankControl_spec c cw n (loopFor (writeBankControl c cw) n p)
    have hs : ∀ b, bankSetup c (loopFor (writeBankControl c cw) n p).port b = bankSetup c p.port b :=
      fun b => bankSetup_congr c ihu b
    have hw : controlBankWords c (loopFor (writeBankControl c cw) n p).port cw n = controlBankWords c p.port cw n := by
      simp only [controlBankWords, hs]
    refine ⟨hd.trans ihd, ?_, ?_, fun _ => ?_⟩
    · rw [loopFor_succ, he, ihe, hw, controlWords, controlWords, List.range_succ]
      simp
    · rw [loopFor_succ, hp, controlData_owned, ihu]
    · rw [loopFor_succ, hp, hs]
      rfl

end Sys2Proof.Machine
end

