-- ==== Sys2Proof/Laws/Exec.lean ====
section
/-! SUPPORT. One inversion lemma per meaning: if it answers a next state, then one of these cases holds. -/

namespace Sys2Proof.Machine

theorem execInit_cases {p b n : Nat} {s t : State} (h : execInit p b n s = .next t) :
    (s.phase ≠ .uninit ∧ t = refuse .alreadyInitialised s) ∨
    (s.phase = .uninit ∧ legalGeometry p b n = false ∧ t = refuse .badConfiguration s) ∨
    (s.phase = .uninit ∧ legalGeometry p b n = true ∧
      t = { s with P := p, B := b, N := n, tableBuilt := true, pins := idlePins s.cfg s.pins,
                   timerInterval := s.cfg.baseInterval >>> p, timerArmed := true, timerEnabled := false,
                   phase := .ready }) := by
  unfold execInit at h
  split at h
  · next hp => exact .inl ⟨hp, by simpa using h.symm⟩
  · next hp =>
    simp only [ne_eq, not_not] at hp
    split at h
    · next hg => exact .inr (.inl ⟨hp, by simpa using hg, by simpa using h.symm⟩)
    · next hg => exact .inr (.inr ⟨hp, by simpa using hg, by simpa [State.armTimer] using h.symm⟩)

theorem execSetbrt_cases {pct : Byte} {s t : State} (h : execSetbrt pct s = .next t) :
    (s.phase = .uninit ∧ t = refuse .notInitialised s) ∨
    (s.phase = .running ∧ t = refuse .brightnessWhileRunning s) ∨
    (s.phase = .ready ∧ t = s.withPins (writeControl s.cfg (controlWord s.cfg.cwPrefix pct) s.B s.pins)) := by
  unfold execSetbrt at h
  split at h <;> simp_all

theorem execStart_cases {s t : State} (h : execStart s = .next t) :
    (s.phase = .uninit ∧ t = refuse .notInitialised s) ∨
    (s.phase = .running ∧ t = refuse .startWhileRunning s) ∨
    (s.phase = .ready ∧ t = { s with bank := 0, plane := 0, subcount := 0#8, timerEnabled := true, phase := .running }) := by
  unfold execStart at h
  split at h <;> simp_all [State.withCursor, State.enableTimer]

theorem execStop_cases {s t : State} (h : execStop s = .next t) :
    (s.phase = .uninit ∧ t = refuse .notInitialised s) ∨
    (s.phase ≠ .uninit ∧ t = { s with timerEnabled := false, phase := .ready }) := by
  unfold execStop at h
  split at h <;> simp_all [State.disableTimer]

theorem tickEnabled_iff (s : State) : s.tickEnabled = true ↔ s.timerEnabled = true ∧ s.phase = .running := by
  simp [State.tickEnabled]

theorem execTick_cases {s t : State} (h : execTick s = .next t) :
    s.tickEnabled = true ∧
    (((s.subcount + 1#8).toNat < dwell s.P s.plane ∧ t = { s with subcount := s.subcount + 1#8 }) ∨
     (dwell s.P s.plane ≤ (s.subcount + 1#8).toNat ∧ t = transition s)) := by
  unfold execTick at h
  split at h
  · next he =>
    refine ⟨he, ?_⟩
    dsimp only at h
    split at h
    · next hc => exact .inl ⟨hc, by simpa using h.symm⟩
    · next hc => exact .inr ⟨by omega, by simpa using h.symm⟩
  · simp at h

theorem updateByte_cases {a : Nat} {f : Byte → Byte} {s t : State} (h : updateByte a f s = .next t) :
    (s.phase = .uninit ∧ t = refuse .notInitialised s) ∨
    (s.phase ≠ .uninit ∧ s.bufferSize ≤ a ∧ t = refuse .bufferAddressOutOfRange s) ∨
    (s.phase ≠ .uninit ∧ a < s.bufferSize ∧ t = s.withFb (s.fb.write a (f (s.fb.read a)))) := by
  unfold updateByte at h
  split at h
  · next hp => exact .inl ⟨hp, by simpa using h.symm⟩
  · next hp =>
    split at h
    · next ha => exact .inr (.inl ⟨hp, ha, by simpa using h.symm⟩)
    · next ha => exact .inr (.inr ⟨hp, by omega, by simpa using h.symm⟩)

theorem execFbset_cases {a : Nat} {m : Byte} {s t : State} (h : execFbset a m s = .next t) :
    (s.phase = .uninit ∧ t = refuse .notInitialised s) ∨
    (s.phase ≠ .uninit ∧ s.bufferSize ≤ a ∧ t = refuse .bufferAddressOutOfRange s) ∨
    (s.phase ≠ .uninit ∧ a < s.bufferSize ∧ t = s.withFb (s.fb.write a (s.fb.read a ||| m))) :=
  updateByte_cases h

theorem execFbclr_cases {a : Nat} {m : Byte} {s t : State} (h : execFbclr a m s = .next t) :
    (s.phase = .uninit ∧ t = refuse .notInitialised s) ∨
    (s.phase ≠ .uninit ∧ s.bufferSize ≤ a ∧ t = refuse .bufferAddressOutOfRange s) ∨
    (s.phase ≠ .uninit ∧ a < s.bufferSize ∧ t = s.withFb (s.fb.write a (s.fb.read a &&& ~~~m))) :=
  updateByte_cases h

theorem execFbwr_cases {a : Nat} {v : Byte} {s t : State} (h : execFbwr a v s = .next t) :
    (s.phase = .uninit ∧ t = refuse .notInitialised s) ∨
    (s.phase ≠ .uninit ∧ s.bufferSize ≤ a ∧ t = refuse .bufferAddressOutOfRange s) ∨
    (s.phase ≠ .uninit ∧ a < s.bufferSize ∧ t = s.withFb (s.fb.write a v)) :=
  updateByte_cases h

theorem exec_primitive {i : Instr} (h : isBufferPrimitive i = true) :
    ∃ a f, byteUpdate i = some (a, f) ∧ ∀ s, exec i s = updateByte a f s := by
  cases i <;> first
    | exact ⟨_, _, rfl, fun _ => rfl⟩
    | simp [isBufferPrimitive] at h

/-- An initialised block accepts a primitive inside the buffer (R121). -/
theorem updateByte_next {a : Nat} {s : State} (f : Byte → Byte) (hp : s.phase ≠ .uninit) (ha : a < s.bufferSize) :
    updateByte a f s = .next (s.withFb (s.fb.write a (f (s.fb.read a)))) := by
  simp [updateByte, hp, Nat.not_le.mpr ha]

/-- Exactly the disabled TICK has no next state (R221). -/
theorem exec_next_or_disabled (i : Instr) (s : State) :
    (∃ t, exec i s = .next t) ∨ (i = .tick ∧ s.tickEnabled = false ∧ exec i s = .refused .tickNotEnabled) := by
  cases i with
  | init p b n => left; simp only [exec, execInit]; split <;> [skip; split] <;> exact ⟨_, rfl⟩
  | setbrt pct => left; simp only [exec, execSetbrt]; split <;> exact ⟨_, rfl⟩
  | start => left; simp only [exec, execStart]; split <;> exact ⟨_, rfl⟩
  | stop => left; simp only [exec, execStop]; split <;> exact ⟨_, rfl⟩
  | tick =>
    simp only [exec, execTick]
    cases he : s.tickEnabled
    · right; simp
    · left
      simp only [if_true]
      split <;> exact ⟨_, rfl⟩
  | fbset a m => left; simp only [exec, execFbset, updateByte]; split <;> [skip; split] <;> exact ⟨_, rfl⟩
  | fbclr a m => left; simp only [exec, execFbclr, updateByte]; split <;> [skip; split] <;> exact ⟨_, rfl⟩
  | fbwr a v => left; simp only [exec, execFbwr, updateByte]; split <;> [skip; split] <;> exact ⟨_, rfl⟩

end Sys2Proof.Machine
end

