-- ==== Sys2Proof/Laws/PerInstr.lean ====
section
/-! SUPPORT. Statements made once per operation: the word the encoder gives is one its own row of the opcode table spells
(spec/30_encoding.md R95). -/

namespace Sys2Proof.Laws.EncodeFitsRow

/-- The encoded word carries the fixed bits of the operation's row, and the decoder accepts it. -/
def Statement (i : Instr) : Prop := i.row.spelledBy (encode i) = true

theorem fixedBits {w : CommandWord} {r : OpcodeRow} (h : w &&& r.mask = r.pattern) : r.spelledBy w = true := by
  simpa [OpcodeRow.spelledBy] using h

theorem init (p b n : Nat) : Statement (.init p b n) := by
  apply fixedBits
  apply BitVec.eq_of_getLsbD_eq
  intro i hi
  simp only [encode, Instr.row, initRow, BitVec.getLsbD_and, BitVec.getLsbD_append]
  interval_cases i <;> simp

theorem setbrt (pct : Byte) : Statement (.setbrt pct) := by
  apply fixedBits
  apply BitVec.eq_of_getLsbD_eq
  intro i hi
  simp only [encode, Instr.row, setbrtRow, BitVec.getLsbD_and, BitVec.getLsbD_append]
  interval_cases i <;> simp

theorem start : Statement .start := rfl

theorem stop : Statement .stop := rfl

theorem tick : Statement .tick := rfl

theorem fbset (a : Nat) (m : Byte) : Statement (.fbset a m) := by
  apply fixedBits
  apply BitVec.eq_of_getLsbD_eq
  intro i hi
  simp only [encode, Instr.row, fbsetRow, BitVec.getLsbD_and, BitVec.getLsbD_append]
  interval_cases i <;> simp

theorem fbclr (a : Nat) (m : Byte) : Statement (.fbclr a m) := by
  apply fixedBits
  apply BitVec.eq_of_getLsbD_eq
  intro i hi
  simp only [encode, Instr.row, fbclrRow, BitVec.getLsbD_and, BitVec.getLsbD_append]
  interval_cases i <;> simp

theorem fbwr (a : Nat) (v : Byte) : Statement (.fbwr a v) := by
  apply fixedBits
  apply BitVec.eq_of_getLsbD_eq
  intro i hi
  simp only [encode, Instr.row, fbwrRow, BitVec.getLsbD_and, BitVec.getLsbD_append]
  interval_cases i <;> simp

end Sys2Proof.Laws.EncodeFitsRow
end

