-- ==== Sys2Proof/Laws/PixelEncoder.lean ====
section
/-! SUPPORT. What the pixel encoder's address arithmetic gives: R127 taken apart, a pixel's address inside its slice and
past the buffer, and the bits of a channel value (spec/41_framebuffer_ops.md R127 to R130). -/

namespace Sys2Proof

/-- Of a built configuration, every row of a panel with a column lies on one of the eight data lines, in a bank the two
address lines reach (R127, U1). -/
theorem Config.row_in_range (c : Config) {y : Nat} (hw : c.geometry.width ≠ 0) (hy : y < c.geometry.height) :
    c.pixelBank y < 4 ∧ c.pixelLine y < 8 := by
  have h := c.geometry_wf
  simp only [Geometry.wellFormed, Bool.and_eq_true, Bool.or_eq_true, decide_eq_true_eq, hw, false_or,
    List.all_eq_true, List.mem_range] at h
  exact h.1 y hy

/-- R127 at one pixel. -/
theorem Config.geometryFits_at {c : Config} {P B N x y : Nat} (h : c.geometryFits P B N = true)
    (hx : x < c.geometry.width) (hy : y < c.geometry.height) :
    c.pixelOffset x y + 2 * chStride < N ∧ c.pixelBank y < B ∧ c.pixelLine y < 8 := by
  simp only [Config.geometryFits, Bool.and_eq_true, List.all_eq_true, List.mem_range, decide_eq_true_eq] at h
  have := h.2 x hx y hy
  exact ⟨this.1.1, this.1.2, this.2⟩

theorem Config.geometryFits_channels {c : Config} {P B N : Nat} (h : c.geometryFits P B N = true) :
    c.geometry.channelsFit P = true := by
  simp only [Config.geometryFits, Bool.and_eq_true] at h
  exact h.1

/-- A plane the channel values have a bit for. -/
theorem Geometry.planeBit_of_le {g : Geometry} {P d : Nat} (h : d ≤ g.msb P) (v : BitVec g.chBits) :
    g.planeBit P d v = (g.corrected v).testBit (g.msb P - d) := by
  simp [Geometry.planeBit, h]

/-- Where the channel values have `P` bits every plane has one (R129). -/
theorem Geometry.plane_le_msb {g : Geometry} {P d : Nat} (h : g.channelsFit P = true) (hd : d < P) : d ≤ g.msb P := by
  unfold Geometry.channelsFit at h
  unfold Geometry.msb
  split at h <;> simp_all <;> omega

end Sys2Proof

namespace Sys2Proof.Machine

/-- Inside the slice a pixel's byte is where R130 puts it. -/
theorem pixelAddress_inside {P B N d bank offset : Nat} (hb : bank < B) (ho : offset < N) :
    pixelAddress P B N d bank offset = fbAddress B N d bank offset := by
  simp [pixelAddress, hb, ho]

/-- Outside the slice it is past the buffer (R264). -/
theorem pixelAddress_outside {P B N d bank offset : Nat} (h : ¬ (bank < B ∧ offset < N)) :
    pixelAddress P B N d bank offset = P * B * N := by
  simp [pixelAddress, h]

/-- An in-range plane, bank and offset lie in the buffer (R51). -/
theorem fbAddress_lt {P B N d bank offset : Nat} (hd : d < P) (hb : bank < B) (ho : offset < N) :
    fbAddress B N d bank offset < P * B * N := by
  have h1 : d * B + bank + 1 ≤ P * B := by nlinarith
  unfold fbAddress
  nlinarith

/-- The one-bit write of R130 in an initialised block: refused F6 past the buffer, else one byte updated. -/
theorem exec_bitOp {s : State} (bit : Bool) (a : Nat) (m : Byte) (hp : s.phase ≠ .uninit) :
    exec (bitOp bit a m) s =
      if s.bufferSize ≤ a then .next (refuse .bufferAddressOutOfRange s)
      else .next (s.withFb (s.fb.write a (if bit then s.fb.read a ||| m else s.fb.read a &&& ~~~m))) := by
  cases bit <;> simp [bitOp, exec, execFbset, execFbclr, updateByte, hp]

end Sys2Proof.Machine
end

