-- ==== Sys2Proof/Laws/Step.lean ====
section
/-! SUPPORT. What one step can do, said once: nothing, an operation, an illegal word's refusal, or one read of an
interleaved transition. -/

namespace Sys2Proof.Machine

/-- The state with its run replaced by what comes after the next command. -/
def State.popped (s : State) (rest : List Command) : State := { s with pending := rest }

section popped
variable (s : State) (rest : List Command)

@[simp] theorem popped_cfg : (s.popped rest).cfg = s.cfg := rfl
@[simp] theorem popped_P : (s.popped rest).P = s.P := rfl
@[simp] theorem popped_B : (s.popped rest).B = s.B := rfl
@[simp] theorem popped_N : (s.popped rest).N = s.N := rfl
@[simp] theorem popped_bank : (s.popped rest).bank = s.bank := rfl
@[simp] theorem popped_plane : (s.popped rest).plane = s.plane := rfl
@[simp] theorem popped_subcount : (s.popped rest).subcount = s.subcount := rfl
@[simp] theorem popped_pins : (s.popped rest).pins = s.pins := rfl
@[simp] theorem popped_tableBuilt : (s.popped rest).tableBuilt = s.tableBuilt := rfl
@[simp] theorem popped_fb : (s.popped rest).fb = s.fb := rfl
@[simp] theorem popped_timerArmed : (s.popped rest).timerArmed = s.timerArmed := rfl
@[simp] theorem popped_timerEnabled : (s.popped rest).timerEnabled = s.timerEnabled := rfl
@[simp] theorem popped_timerInterval : (s.popped rest).timerInterval = s.timerInterval := rfl
@[simp] theorem popped_phase : (s.popped rest).phase = s.phase := rfl
@[simp] theorem popped_refused : (s.popped rest).refused = s.refused := rfl
@[simp] theorem popped_pending : (s.popped rest).pending = rest := rfl
@[simp] theorem popped_streaming : (s.popped rest).streaming = s.streaming := rfl
@[simp] theorem popped_bufferSize : (s.popped rest).bufferSize = s.bufferSize := rfl
@[simp] theorem popped_tickEnabled : (s.popped rest).tickEnabled = s.tickEnabled := rfl
end popped

theorem step_nil {s : State} (h : s.pending = []) : step s = .next s := by
  simp [step, fetch, h]

theorem step_cons {s : State} {c : Command} {rest : List Command} (h : s.pending = c :: rest) :
    step s = deliver c (s.popped rest) := by
  simp [step, fetch, h, State.popped]

theorem deliverInstr_idle {i : Instr} {s : State} (h : s.streaming = none) : deliverInstr i s = exec i s := by
  simp [deliverInstr, h]

theorem deliverInstr_cases {i : Instr} {s t : State} (h : deliverInstr i s = .next t) :
    (s.streaming = none ∨ isBufferPrimitive i = true) ∧ exec i s = .next t := by
  unfold deliverInstr at h
  split at h
  · simp at h
  · next hc =>
    refine ⟨?_, h⟩
    cases hs : s.streaming with
    | none => simp
    | some r => exact .inr (by simpa [hs] using hc)

/-- What a delivered command can do. -/
theorem deliver_cases {c : Command} {s t : State} (h : deliver c s = .next t) :
    (∃ i, commandInstr c = some i ∧ (s.streaming = none ∨ isBufferPrimitive i = true) ∧ exec i s = .next t) ∨
    (∃ w e, c = .word w ∧ decode w = .error e ∧ s.streaming = none ∧ t = refuse .illegalCommand s) ∨
    (∃ r, c = .nextRead ∧ s.streaming = some r ∧ t = readStep s r) := by
  cases c with
  | word w =>
    simp only [deliver, deliverWord] at h
    cases hd : decode w with
    | ok i =>
      rw [hd] at h
      exact .inl ⟨i, by simp [commandInstr, hd, Except.toOption], deliverInstr_cases h⟩
    | error e =>
      rw [hd] at h
      dsimp only at h
      split at h
      · simp at h
      · next hs => exact .inr (.inl ⟨w, e, rfl, hd, by simpa using hs, by simpa using h.symm⟩)
  | op i => exact .inl ⟨i, rfl, deliverInstr_cases h⟩
  | nextRead =>
    simp only [deliver, deliverRead] at h
    split at h
    · simp at h
    · next r hr => exact .inr (.inr ⟨r, rfl, hr, by simpa using h.symm⟩)

/-- What a step can do. -/
theorem step_cases {s t : State} (h : step s = .next t) :
    (s.pending = [] ∧ t = s) ∨ ∃ c rest, s.pending = c :: rest ∧
      ((∃ i, commandInstr c = some i ∧ (s.streaming = none ∨ isBufferPrimitive i = true) ∧
          exec i (s.popped rest) = .next t) ∨
       (∃ w e, c = .word w ∧ decode w = .error e ∧ s.streaming = none ∧ t = refuse .illegalCommand (s.popped rest)) ∨
       (∃ r, c = .nextRead ∧ s.streaming = some r ∧ t = readStep (s.popped rest) r)) := by
  cases hp : s.pending with
  | nil =>
    rw [step_nil hp] at h
    exact .inl ⟨rfl, by simpa using h.symm⟩
  | cons c rest =>
    rw [step_cons hp] at h
    exact .inr ⟨c, rest, rfl, deliver_cases h⟩

theorem execAll_cons (i : Instr) (is : List Instr) (s : State) :
    execAll (i :: is) s = match exec i s with
      | .next t => execAll is t
      | .fault r => .fault r
      | .refused r => .refused r := rfl

/-- Running one list after another. -/
theorem execAll_append {is js : List Instr} {s t : State} (h : execAll is s = .next t) :
    execAll (is ++ js) s = execAll js t := by
  induction is generalizing s with
  | nil => simp_all [execAll]
  | cons i is ih =>
    rw [List.cons_append, execAll_cons]
    rw [execAll_cons] at h
    split at h <;> simp_all

/-- The fetch the host's checks use: the next step is the operation the word spells. -/
theorem step_withFetchWord (s : State) {w : Nat} {i : Instr} (h : decodeTableWord 32 w = some i) :
    step (s.withFetchWord 32 w) = exec i { s with streaming := none } := by
  simp only [decodeTableWord, Nat.le_refl, if_true] at h
  cases hd : decode (BitVec.ofNat 32 (w % 2 ^ 32)) with
  | error e =>
    rw [hd] at h
    simp [Except.toOption] at h
  | ok j =>
    rw [hd] at h
    have : j = i := by simpa [Except.toOption] using h
    rw [step_cons rfl]
    simp only [deliver, deliverWord, hd, this]
    exact deliverInstr_idle rfl

end Sys2Proof.Machine
end

