-- ==== Sys2Proof/Tests/Slice0.lean ====
section
/-! SUPPORT. Tests: the smoke test of the well-formedness checks, decoding of words written out from R95 and the vectors
V50 and V51, single steps of the vectors of spec/95_test_vectors.md, and for each statement with hypotheses a state and
operands that meet them. -/

namespace Sys2Proof.Tests

open Sys2Proof Sys2Proof.Machine

/-! ### Helpers -/

/-- A configured block with the cursor at `(0,0,0)`, one word emitted, and nothing to come. -/
def block (c : Config) (P B N : Nat) (phase : Phase) (port : PortWord c.width) (fb : Memory) : State :=
  { cfg := c, P := P, B := B, N := N, bank := 0, plane := 0, subcount := 0#8,
    pins := { port := port, dir := c.ownedMask, emitted := [port] }, tableBuilt := true, fb := fb, timerArmed := true,
    timerEnabled := decide (phase = .running), timerInterval := c.baseInterval >>> P, phase := phase, refused := none,
    pending := [], streaming := none }

/-- PINSET-A with one chip. -/
def pinsA : Config := { Config.pinsetA with chips := 1, wf := by decide }

/-- PINSET-A with one chip and `FB_INTERLEAVE` true. -/
def pinsI : Config := { Config.pinsetA with chips := 1, fbInterleave := true, wf := by decide }

/-- P = 1, B = 2, N = 2, as in V25. -/
def readyA : State := block pinsA 1 2 2 .ready 0x400#32 [(0, 0x01#8), (1, 0x80#8), (2, 0xFF#8)]
def runningA : State := block pinsA 1 2 2 .running 0x400#32 [(0, 0x01#8), (1, 0x80#8), (2, 0xFF#8)]
def launched : State := State.launch pinsA (0x0000F0FF#32 : BitVec 32) 1 0 7#8 true [(5, 0xEE#8)]

/-- An interleaved transition before its second, and last, read. -/
def midTransition : State :=
  { block pinsI 1 2 2 .running 0x5FF#32 [(0, 0x01#8), (1, 0x80#8), (2, 0xFF#8)] with
    bank := 1, streaming := some ⟨2, (0x400#32 : BitVec 32), 1⟩ }

/-- What a next state shows; nothing for a stop. -/
def shows {α : Type} (o : Host.Outcome State Fault Refusal) (f : State → α) : Option α :=
  match o with
  | .next t => some (f t)
  | .fault _ => none
  | .refused _ => none

/-- The words emitted since the first `k`. -/
def wordsFrom (k : Nat) (s : State) : List Nat := (s.trace.map BitVec.toNat).drop k

/-! ### Well-formedness refuses (the field widths of R95) -/

theorem test_init_planes_too_many : (Instr.init 8 1 1).wellFormed = false := by decide
theorem test_init_banks_too_many : (Instr.init 1 8 1).wellFormed = false := by decide
theorem test_init_bytes_too_many : (Instr.init 1 1 65536).wellFormed = false := by decide
theorem test_fbset_address_too_large : (Instr.fbset 1048576 1#8).wellFormed = false := by decide
theorem test_fbclr_address_too_large : (Instr.fbclr 1048576 1#8).wellFormed = false := by decide
theorem test_fbwr_address_too_large : (Instr.fbwr 1048576 1#8).wellFormed = false := by decide

/-- A pin shared by two lines, a pin off the port, no chip, seven data lines: ill-formed configurations (R10). -/
theorem test_config_shared_pin : { Config.pinsetA.toParams with clkPin := 3 }.wellFormed = false := by decide
theorem test_config_pin_off_port : { Config.pinsetA.toParams with a1Pin := 32 }.wellFormed = false := by decide
theorem test_config_no_chip : { Config.pinsetA.toParams with chips := 0 }.wellFormed = false := by decide
theorem test_config_seven_lines :
    { Config.pinsetA.toParams with dataPins := [0, 1, 2, 3, 4, 5, 6] }.wellFormed = false := by decide
/-- A row on data line 8, a row of bank 4, a short gamma table, a falling one, and no channel bit (R127, R129, U1). -/
theorem test_config_line_eight :
    { Config.pinsetA.toParams with geometry := { Geometry.psetA with heightMask := 127, height := 128 } }.wellFormed
      = false := by decide
theorem test_config_bank_four :
    { Config.pinsetA.toParams with geometry := { Geometry.psetA with bankMask := 7 } }.wellFormed = false := by decide
theorem test_config_gamma :
    [some [0, 1], some [0, 2, 1, 3], none, some [0, 1, 2, 3]].map (fun t =>
      { Config.pinsetA.toParams with
        geometry := { Geometry.psetA with chBits := if t = none then 0 else 2, gamma := t } }.wellFormed)
      = [false, false, false, true] := by decide
theorem test_config_interval : { Config.pinsetA.toParams with baseInterval := 63 }.wellFormed = false := by decide

/-! ### Decoding (words written out from R95; V50, V51) -/

theorem test_decode_init : decode 0b0001_00000_100_0_001_0000000000011000#32 = .ok (.init 1 4 24) := by decide
theorem test_decode_setbrt : decode 0b0010_00000000000000000000_01100100#32 = .ok (.setbrt 100#8) := by decide
theorem test_decode_start : decode 0b0011_0000000000000000000000000000#32 = .ok .start := by decide
theorem test_decode_stop : decode 0b0100_0000000000000000000000000000#32 = .ok .stop := by decide
theorem test_decode_tick : decode 0b0101_0000000000000000000000000000#32 = .ok .tick := by decide
theorem test_decode_fbset : decode 0b0110_00000000000000100000_00000001#32 = .ok (.fbset 32 0x01#8) := by decide
theorem test_decode_fbclr : decode 0b0111_00000000000011111001_00000010#32 = .ok (.fbclr 249 0x02#8) := by decide
theorem test_decode_fbwr : decode 0b1000_00000000000000000010_11110000#32 = .ok (.fbwr 2 0xF0#8) := by decide
theorem test_decode_bad_argument : decode 0x10470018#32 = .ok (.init 7 4 24) := by decide

theorem test_reserved_opcodes :
    [0x00000000#32, 0x90000000#32, 0xA0000000#32, 0xFFFFFFFF#32].map decode =
      List.replicate 4 (.error .reservedOpcode) := by decide
theorem test_fixed_bits :
    [0x30000001#32, 0x40000100#32, 0x20000164#32, 0x10C10018#32, 0x10490018#32, 0x11410018#32].map decode =
      List.replicate 6 (.error .fixedBitsNotZero) := by decide

/-- No two rows of the opcode table share a word. -/
theorem test_rows_disjoint :
    opcodeRows.Pairwise (fun r q => r.pattern &&& q.mask &&& r.mask ≠ q.pattern &&& r.mask &&& q.mask) := by decide

/-- V51: a word that spells nothing is refused F7 and the machine goes on. -/
theorem test_illegal_word :
    shows (step (readyA.withFetchWord 32 0x30000001)) (fun t => (t.refused, t.phase, t.pins.emitted.length)) =
      some (some .illegalCommand, .ready, 1) := by decide

/-- The fetch the host uses: from reset the first step runs the word. -/
theorem test_first_step_after_reset :
    shows (step (State.reset.withFetchWord 32 0x10410018)) (fun t => (t.P, t.B, t.N, t.phase, t.pending)) =
      some (1, 4, 24, .ready, []) := by decide

/-! ### The table, the gain and the control word (V1 to V4, V10, V11) -/

theorem test_table_b :
    [0x00#8, 0x01#8, 0x02#8, 0x08#8, 0x10#8, 0x80#8, 0x12#8, 0x34#8, 0x3C#8, 0xA5#8, 0xFF#8].map
      (fun v => (Config.pinsetB.tableWord v).toNat) =
      [0, 0x4, 0x8, 0x20, 0x40000, 0x200000, 0x40008, 0xC0010, 0xC0030, 0x280014, 0x3C003C] := by decide
theorem test_gain_row_96 :
    (List.range 16).map (fun i => gain (96 + i)) =
      [41, 41, 42, 42, 43, 43, 43, 43, 43, 44, 44, 44, 44, 44, 45, 45] := by decide
theorem test_control_word :
    [0#8, 50#8, 100#8, 199#8, 255#8].map (fun p => (controlWord 0x1B1#10 p).toNat) =
      [0x6C40, 0x6C52, 0x6C6B, 0x6C7E, 0x6C7F] := by decide

/-! ### Single steps -/

/-- V42. -/
theorem test_init_word :
    shows (exec (.init 1 4 24) launched) (fun t => (wordsFrom 0 t, t.pins.dir.toNat, t.timerInterval)) =
      some ([0xE400], 0x1FFF, 32) := by decide
/-- V40. -/
theorem test_init_refused :
    [shows (exec (.init 0 4 8) launched) (·.refused), shows (exec (.init 7 4 8) launched) (·.refused),
     shows (exec (.init 1 5 8) launched) (·.refused), shows (exec (.init 1 0 8) launched) (·.refused),
     shows (exec (.init 1 4 0) launched) (·.refused), shows (exec (.init 1 4 8) readyA) (·.refused)] =
      [some (some .badConfiguration), some (some .badConfiguration), some (some .badConfiguration),
       some (some .badConfiguration), some (some .badConfiguration), some (some .alreadyInitialised)] := by decide

/-- V12: fifty words, the second and the last bit among them, and the port left. -/
theorem test_setbrt_words :
    shows (exec (.setbrt 100#8) (block pinsA 1 1 1 .ready 0x400#32 [])) (fun t => wordsFrom 1 t) =
      some ([0x400] ++ [0x400, 0x500, 0x400, 0x4FF, 0x5FF, 0x4FF, 0x4FF, 0x5FF, 0x4FF, 0x400, 0x500, 0x400]
        ++ [0x4FF, 0x5FF, 0x4FF, 0x4FF, 0x5FF, 0x4FF, 0x400, 0x500, 0x400, 0x400, 0x500, 0x400]
        ++ [0x400, 0x500, 0x400, 0x4FF, 0x5FF, 0x4FF, 0x4FF, 0x5FF, 0x4FF, 0x400, 0x500, 0x400]
        ++ [0x6FF, 0x7FF, 0x6FF, 0x600, 0x700, 0x600, 0x6FF, 0x7FF, 0x6FF, 0x6FF, 0x7FF, 0x6FF] ++ [0x4FF]) := by
  decide +kernel
/-- V15. -/
theorem test_setbrt_refused :
    [shows (exec (.setbrt 50#8) launched) (·.refused), shows (exec (.setbrt 50#8) runningA) (·.refused)] =
      [some (some .notInitialised), some (some .brightnessWhileRunning)] := by decide

/-- V41. -/
theorem test_start :
    shows (exec .start { readyA with bank := 1, subcount := 3#8 }) (fun t => (t.cursor, t.phase, t.timerEnabled)) =
      some ((0, 0, 0), .running, true) := by decide
theorem test_start_refused :
    shows (exec .start { runningA with bank := 1 }) (fun t => (t.refused, t.bank)) =
      some (some .startWhileRunning, 1) := by decide
theorem test_stop :
    shows (exec .stop runningA) (fun t => (t.phase, t.timerEnabled, wordsFrom 1 t, t.pins.port.toNat)) =
      some (.ready, false, [], 0x400) := by decide
theorem test_stop_refused : shows (exec .stop launched) (·.refused) = some (some .notInitialised) := by decide

/-- V25, tick 1. -/
theorem test_tick_transition :
    shows (exec .tick runningA) (fun t => (t.cursor, wordsFrom 1 t)) =
      some ((1, 0, 0), [0x400, 0x4FF, 0x5FF, 0x400, 0x500, 0x400, 0xC00, 0xE00, 0xC00, 0x800]) := by decide +kernel
/-- V28. -/
theorem test_tick_idle :
    shows (exec .tick (block pinsA 2 1 1 .running 0x400#32 [])) (fun t => (t.cursor, wordsFrom 1 t)) =
      some ((0, 0, 1), []) := by decide

/-- The last read of an interleaved transition: the second pair of V25 and the five closing words. -/
theorem test_last_read :
    shows (step { midTransition with pending := [.nextRead] }) (fun t => (t.streaming.isSome, wordsFrom 1 t)) =
      some (false, [0x400, 0x500, 0x400, 0xC00, 0xE00, 0xC00, 0x800]) := by decide +kernel

/-- V30 and V36. -/
theorem test_fbset :
    shows (exec (.fbset 5 0x03#8) (block pinsA 1 2 3 .ready 0#32 [(5, 0x21#8)])) (fun t => t.fb) =
      some [(5, 0x23#8)] := by decide
theorem test_fbset_out_of_range :
    shows (exec (.fbset 4 1#8) readyA) (fun t => (t.refused, t.fb)) =
      some (some .bufferAddressOutOfRange, readyA.fb) := by decide
theorem test_fbclr :
    shows (exec (.fbclr 5 0x21#8) (block pinsA 1 2 3 .ready 0#32 [(5, 0x23#8)])) (fun t => t.fb) =
      some [(5, 0x02#8)] := by decide
theorem test_fbclr_all :
    shows (exec (.fbclr 5 0xFF#8) (block pinsA 1 2 3 .ready 0#32 [(5, 0xFF#8)])) (fun t => t.fb) = some [] := by decide
theorem test_fbwr : shows (exec (.fbwr 3 1#8) readyA) (·.fb.read 3) = some 1#8 := by decide
theorem test_fbwr_refused :
    shows (exec (.fbwr 0 0#8) launched) (fun t => (t.refused, t.fb)) =
      some (some .notInitialised, [(5, 0xEE#8)]) := by decide

/-! ### HOST's pseudo-operations (V32, V34, V35) -/

theorem test_setpixel :
    setPixel Config.pinsetA 2 4 96 9 13 ⟨(0xC0#8 : BitVec 8), (0x80#8 : BitVec 8), (0x40#8 : BitVec 8)⟩ =
      [.fbclr 249 2#8, .fbset 265 2#8, .fbset 281 2#8, .fbset 633 2#8, .fbclr 649 2#8, .fbset 665 2#8] := by
  decide +kernel
theorem test_setpixel_off_panel :
    [((16 : Int), (0 : Int)), (0, 64), (-1, 5)].map (fun p =>
      setPixel Config.pinsetA 1 4 96 p.1 p.2 ⟨(1#8 : BitVec 8), (1#8 : BitVec 8), (1#8 : BitVec 8)⟩) =
      [[], [], []] := by decide +kernel
/-- R264: with slices of 24 bytes the red write of pixel (0,0) is refused F6 and lands in no slice. -/
theorem test_setpixel_outside_slice :
    let s := block Config.pinsetA 1 4 24 .ready 0x400#32 []
    shows (execAll (s.setPixelOps 0 0 ⟨(0xFF#8 : BitVec 8), (0xFF#8 : BitVec 8), (0xFF#8 : BitVec 8)⟩) s)
      (fun t => (t.fb, t.refused)) = some ([(0, 0x01#8), (16, 0x01#8)], some .bufferAddressOutOfRange) := by
  decide +kernel
theorem test_clear :
    readyA.clearOps true = [.fbwr 0 0xFF#8, .fbwr 1 0xFF#8, .fbwr 2 0xFF#8, .fbwr 3 0xFF#8] := by decide

/-! ### Schedules (V21, V22) -/

theorem test_schedule_v21 :
    (List.range 13).map (cursorAfter 2 4) =
      [(0, 0, 0), (0, 0, 1), (1, 0, 0), (1, 0, 1), (2, 0, 0), (2, 0, 1), (3, 0, 0), (3, 0, 1), (0, 1, 0), (1, 1, 0),
       (2, 1, 0), (3, 1, 0), (0, 0, 0)] := by decide
theorem test_schedule_v22 :
    [4, 8, 10, 12, 13, 14].map (cursorAfter 3 2) =
      [(1, 0, 0), (0, 1, 0), (1, 1, 0), (0, 2, 0), (1, 2, 0), (0, 0, 0)] := by decide

/-! ### States that meet the invariant -/

theorem readyA_inv : readyA.Inv :=
  ⟨by decide, by decide, by decide, by decide, by decide, by decide, by decide, by decide,
    fun r h => by simp [readyA, block] at h⟩
theorem runningA_inv : runningA.Inv :=
  ⟨by decide, by decide, by decide, by decide, by decide, by decide, by decide, by decide,
    fun r h => by simp [runningA, block] at h⟩
theorem midTransition_inv : midTransition.Inv := by
  refine ⟨by decide, by decide, by decide, by decide, by decide, by decide, by decide, by decide, fun r h => ?_⟩
  have h := Option.some.inj h
  subst h
  decide

/-! ### Witnesses: the hypotheses of each statement hold together somewhere -/

theorem witness_EncodedOperationDecodesBack :
    (Instr.init 7 7 65535).wellFormed = true ∧ (Instr.setbrt 255#8).wellFormed = true ∧
    (Instr.fbset 1048575 0#8).wellFormed = true ∧ (Instr.fbclr 0 0#8).wellFormed = true ∧
    (Instr.fbwr 1048575 255#8).wellFormed = true := by decide

theorem witness_DecodedWordIsItsEncoding : decode 0x8FFFFFFF#32 = .ok (.fbwr 1048575 0xFF#8) := by decide

theorem witness_ReservedWordsAreRefused :
    (∃ (s : State) (w : CommandWord) (e : DecodeError),
      s.streaming = none ∧ s.pending = .word w :: [] ∧ decode w = .error e) ∧
    (0 < 8 ∧ 4 < 8 ∧ 24 < 65536 ∧ ¬ (1 ≤ 0 ∧ 0 ≤ 6 ∧ 1 ≤ 4 ∧ 4 ≤ 4 ∧ 24 ≠ 0) ∧ launched.phase = .uninit) ∧
    (7 < 8 ∧ ¬ (1 ≤ 7 ∧ 7 ≤ 6)) ∧ (0 < 65536 ∧ ¬ (0 ≠ 0)) :=
  ⟨⟨{ readyA with pending := [.word 0x90000000#32] }, 0x90000000#32, .reservedOpcode, rfl, rfl, by decide⟩,
    by decide, by decide, by decide⟩

theorem witness_StepRunsTheNextOperation :
    (readyA.streaming = none ∧ readyA.pending = []) ∧
    (∃ (s : State) (w : CommandWord) (i : Instr), s.streaming = none ∧ s.pending = .word w :: [] ∧ decode w = .ok i) ∧
    (∃ (s : State) (i : Instr), s.streaming = none ∧ s.pending = .op i :: []) :=
  ⟨⟨rfl, rfl⟩, ⟨{ readyA with pending := [.word 0x30000000#32] }, _, .start, rfl, rfl, by decide⟩,
    ⟨{ readyA with pending := [.op .stop] }, .stop, rfl, rfl⟩⟩

theorem witness_OnlyPrimitivesRunInsideATransition :
    (∃ (s : State) (r : Streaming s.cfg.width), s.streaming = some r ∧ s.pending = [.nextRead]) ∧
    (∃ (s : State) (r : Streaming s.cfg.width) (w : CommandWord) (i : Instr),
      s.streaming = some r ∧ s.pending = [.word w] ∧ decode w = .ok i ∧ isBufferPrimitive i = true) ∧
    (∃ (s : State) (r : Streaming s.cfg.width) (w : CommandWord) (i : Instr),
      s.streaming = some r ∧ s.pending = [.word w] ∧ decode w = .ok i ∧ isBufferPrimitive i = false) ∧
    (∃ (s : State) (r : Streaming s.cfg.width) (i : Instr),
      s.streaming = some r ∧ s.pending = [.op i] ∧ isBufferPrimitive i = true) ∧
    (∃ (s : State) (r : Streaming s.cfg.width) (i : Instr),
      s.streaming = some r ∧ s.pending = [.op i] ∧ isBufferPrimitive i = false) ∧
    (∃ (s : State) (r : Streaming s.cfg.width) (w : CommandWord) (e : DecodeError),
      s.streaming = some r ∧ s.pending = [.word w] ∧ decode w = .error e) ∧
    (∃ s : State, s.streaming = none ∧ s.pending = [.nextRead]) :=
  ⟨⟨{ midTransition with pending := [.nextRead] }, _, rfl, rfl⟩,
    ⟨{ midTransition with pending := [.word 0x800002F0#32] }, _, _, .fbwr 2 0xF0#8, rfl, rfl, by decide, rfl⟩,
    ⟨{ midTransition with pending := [.word 0x40000000#32] }, _, _, .stop, rfl, rfl, by decide, rfl⟩,
    ⟨{ midTransition with pending := [.op (.fbset 0 1#8)] }, _, .fbset 0 1#8, rfl, rfl, rfl⟩,
    ⟨{ midTransition with pending := [.op .tick] }, _, .tick, rfl, rfl, rfl⟩,
    ⟨{ midTransition with pending := [.word 0x30000001#32] }, _, _, .fixedBitsNotZero, rfl, rfl, by decide⟩,
    ⟨{ runningA with pending := [.nextRead] }, rfl, rfl⟩⟩

theorem witness_IssuedPrimitivesRunInOrder :
    readyA.pending = [] ∧ readyA.streaming = none ∧
    ∀ i ∈ [Instr.fbset 0 1#8, .fbclr 4 1#8, .fbwr 3 0xF0#8], isBufferPrimitive i = true := by decide

/-- For FBSET, FBCLR and FBWR: the last address of the field, a block before INIT, the first address past the buffer, its
last address. -/
theorem witness_buffer_primitives :
    1048575 < 2 ^ 20 ∧ launched.phase = .uninit ∧
    (readyA.phase ≠ .uninit ∧ readyA.P * readyA.B * readyA.N ≤ 4) ∧
    (runningA.phase ≠ .uninit ∧ 3 < runningA.P * runningA.B * runningA.N) := by decide

theorem witness_BufferReadAfterWrite : (1 : Nat) ≠ 0 := by decide

theorem witness_SliceReadsStayInTheBuffer : 0 < 2 ∧ 0 < 4 ∧ 95 < 96 ∧ 1 < 2 ∧ 3 < 4 := by decide

theorem witness_BufferAddressDecomposes : 3 < 4 ∧ 95 < 96 := by decide

theorem witness_ClearFillsTheBuffer : readyA.phase ≠ .uninit ∧ runningA.phase ≠ .uninit := by decide

/-- PSET-A with one plane: the corner pixels of the panel. -/
theorem witness_SetPixelWritesExactlyItsBits :
    ∃ s : State, s.phase ≠ .uninit ∧ s.cfg.geometryFits s.P s.B s.N = true ∧ 15 < s.cfg.geometry.width ∧
      63 < s.cfg.geometry.height ∧ 0 < s.cfg.geometry.width :=
  ⟨block Config.pinsetA 1 4 96 .ready 0x400#32 [], by decide, by decide +kernel, by decide, by decide, by decide⟩

theorem witness_SetPixelOffThePanelDoesNothing :
    ¬ (0 ≤ (-1 : Int) ∧ (-1 : Int) < readyA.cfg.geometry.width ∧ 0 ≤ (5 : Int) ∧ (5 : Int) < readyA.cfg.geometry.height) ∧
    ¬ (0 ≤ (16 : Int) ∧ (16 : Int) < readyA.cfg.geometry.width ∧ 0 ≤ (0 : Int) ∧ (0 : Int) < readyA.cfg.geometry.height) ∧
    ¬ (0 ≤ (0 : Int) ∧ (0 : Int) < readyA.cfg.geometry.width ∧ 0 ≤ (64 : Int) ∧ (64 : Int) < readyA.cfg.geometry.height) := by
  decide

theorem witness_TablePermutesTheByte :
    (0 < 8 ∧ Config.pinsetB.dataPins[0]? = some 2 ∧ 7 < 8 ∧ Config.pinsetB.dataPins[7]? = some 21) ∧
    (launched.phase = .uninit ∧ 1 ≤ 6 ∧ 6 ≤ 6 ∧ 1 ≤ 4 ∧ 4 ≤ 4 ∧ 1 ≤ 1) := by decide

/-- Two bytes with the same table word are the same byte; the hypothesis is met by a byte and itself. -/
theorem witness_TableIsABitPermutation : Config.pinsetB.tableWord 0xA5#8 = Config.pinsetB.tableWord 0xA5#8 := rfl

theorem witness_IdleTickOnlyCounts :
    ∃ s : State, s.phase = .running ∧ s.timerEnabled = true ∧ (s.subcount + 1#8).toNat < dwell s.P s.plane :=
  ⟨block pinsA 2 1 1 .running 0x400#32 [], by decide⟩

/-- The next bank, the next plane, and both wrapped. -/
theorem witness_TransitionAdvancesTheCursor :
    (∃ s : State, s.phase = .running ∧ s.timerEnabled = true ∧ dwell s.P s.plane ≤ (s.subcount + 1#8).toNat ∧
      s.bank + 1 < s.B) ∧
    (∃ s : State, s.phase = .running ∧ s.timerEnabled = true ∧ dwell s.P s.plane ≤ (s.subcount + 1#8).toNat ∧
      s.B ≤ s.bank + 1 ∧ s.plane + 1 < s.P) ∧
    (∃ s : State, s.phase = .running ∧ s.timerEnabled = true ∧ dwell s.P s.plane ≤ (s.subcount + 1#8).toNat ∧
      s.B ≤ s.bank + 1 ∧ s.P ≤ s.plane + 1) :=
  ⟨⟨runningA, by decide⟩, ⟨{ block pinsA 2 2 1 .running 0x400#32 [] with bank := 1, subcount := 1#8 }, by decide⟩,
    ⟨{ runningA with bank := 1 }, by decide⟩⟩

theorem witness_TickFollowsTheSequence :
    (readyA.cfg.fbInterleave = false ∧ 0 < readyA.N ∧ ¬ (readyA.phase = .running ∧ readyA.timerEnabled = true)) ∧
    (∃ s : State, s.cfg.fbInterleave = false ∧ 0 < s.N ∧ s.phase = .running ∧ s.timerEnabled = true ∧
      (s.subcount + 1#8).toNat < dwell s.P s.plane) ∧
    (runningA.cfg.fbInterleave = false ∧ 0 < runningA.N ∧ runningA.phase = .running ∧ runningA.timerEnabled = true ∧
      dwell runningA.P runningA.plane ≤ (runningA.subcount + 1#8).toNat) :=
  ⟨by decide, ⟨block pinsA 2 1 1 .running 0x400#32 [], by decide⟩, by decide⟩

/-- A rising edge of the clock, and positions at both ends of a transition's words. -/
theorem witness_transition_words :
    [0x5A#8] ≠ [] ∧ (0x400#32 : PortWord pinsA.width).getLsbD pinsA.latPin = false ∧
    (transitionWords pinsA (0x400#32 : BitVec 32) 1 [0x5A#8])[0]?.isSome = true ∧
    (transitionWords pinsA (0x400#32 : BitVec 32) 1 [0x5A#8])[7]?.isSome = true ∧
    (risingEdges pinsA.clkPin (0x400#32 : BitVec 32) (transitionWords pinsA (0x400#32 : BitVec 32) 1 [0x5A#8])).length = 1 := by
  decide +kernel

theorem witness_TransitionLeavesTheLastByteLit :
    runningA.cfg.fbInterleave = false ∧ 0 < runningA.N ∧ runningA.phase = .running ∧ runningA.timerEnabled = true ∧
    dwell runningA.P runningA.plane ≤ (runningA.subcount + 1#8).toNat := by decide

theorem witness_FirstDwellAfterStartIsDark :
    ∃ s t : State, s.phase = .ready ∧ s.cfg.fbInterleave = false ∧ 1 ≤ s.P ∧ s.P ≤ 6 ∧ 1 ≤ s.N ∧
      exec .start s = .next t ∧ 31 < 2 ^ (s.P - 1) :=
  ⟨block pinsA 6 4 1 .ready 0x400#32 [], _, rfl, rfl, by decide, by decide, by decide, rfl, by decide⟩

theorem witness_RefreshCycleRepeats :
    ∃ s : State, s.phase = .running ∧ s.timerEnabled = true ∧ s.cfg.fbInterleave = false ∧ 1 ≤ s.P ∧ s.P ≤ 6 ∧
      1 ≤ s.B ∧ s.B ≤ 4 ∧ s.cursor = (0, 0, 0) :=
  ⟨block pinsA 6 4 1 .running 0x400#32 [], by decide⟩

theorem witness_PlanesDwellInProportion : 1 ≤ 6 ∧ 6 ≤ 6 ∧ 1 ≤ 4 ∧ 4 ≤ 4 ∧ 5 < 6 ∧ 3 < 4 := by decide

theorem witness_IntensityIsTheChannelValue : 1 ≤ 6 ∧ 6 ≤ 6 ∧ 1 ≤ 4 ∧ 4 ≤ 4 ∧ 3 < 4 ∧ 63 < 2 ^ 6 := by decide

theorem witness_InterleavedTransitionIsTheSameTransition :
    ∃ s : State, s.cfg.fbInterleave = true ∧ 0 < s.N ∧ s.phase = .running ∧ s.timerEnabled = true ∧
      s.streaming = none ∧ dwell s.P s.plane ≤ (s.subcount + 1#8).toNat ∧
      s.pending = .op .tick :: List.replicate s.N .nextRead :=
  ⟨{ block pinsI 1 2 2 .running 0x400#32 [] with pending := [.op .tick, .nextRead, .nextRead] }, by decide⟩

theorem witness_ControlLinesDoNotDependOnTheBuffer :
    runningA.cfg.fbInterleave = false ∧ runningA.phase = .running ∧ runningA.timerEnabled = true ∧ 0 < runningA.N := by
  decide

theorem witness_NoTickWhileTheTimerIsDisabled :
    (∃ s t : State, s.phase ≠ .uninit ∧ exec .stop s = .next t) ∧
    (∃ s t : State, s.phase = .ready ∧ exec .start s = .next t) :=
  ⟨⟨runningA, _, by decide, rfl⟩, ⟨readyA, _, rfl, rfl⟩⟩

/-- The segments' end points: each percentage lies in one segment only. -/
theorem witness_GainFollowsTheSegments :
    12 ≤ 12 ∧ (12 < 13 ∧ 13 ≤ 100) ∧ (12 < 100 ∧ 100 ≤ 100) ∧ (100 < 101 ∧ 101 < 200) ∧ (100 < 199 ∧ 199 < 200) ∧
    200 ≤ 200 := by decide

theorem witness_GainIsMonotonic : 12 ≤ 100 ∧ 63 < 64 := by decide

theorem witness_SetbrtShiftsTheControlWord :
    launched.phase = .uninit ∧ runningA.phase = .running ∧ (readyA.phase = .ready ∧ 0 < readyA.B) := by decide

/-- The first and last words of a bank, and an unowned bit. -/
theorem witness_BankWriteClocksEveryChip :
    (controlBankWords pinsA (0x400#32 : BitVec 32) 0x6C6B#16 1)[0]?.isSome = true ∧ 13 ∉ pinsA.ownedPins := by decide

theorem witness_SetbrtLeavesTheOutputsOff : readyA.phase = .ready ∧ 0 < readyA.B ∧ 31 ∉ readyA.cfg.ownedPins := by decide

/-- Outside UNINIT, an argument just out of each range, and the two ends of the legal ones. -/
theorem witness_InitConfiguresTheBlock :
    readyA.phase ≠ .uninit ∧ launched.phase = .uninit ∧ (0 < 1) ∧ (6 < 7) ∧ (4 < 5) ∧ (1 ≤ 6 ∧ 6 ≤ 6 ∧ 1 ≤ 4 ∧ 4 ≤ 4 ∧ 1 ≤ 1) := by
  decide

theorem witness_StartResetsTheCursor :
    launched.phase = .uninit ∧ runningA.phase = .running ∧ readyA.phase = .ready := by decide

theorem witness_StopOnlyDisablesTheTimer : launched.phase = .uninit ∧ readyA.phase ≠ .uninit ∧ runningA.phase ≠ .uninit := by
  decide

theorem witness_RefusalsFollowTheTable :
    (runningA.phase = .running ∧ runningA.timerEnabled = true) ∧
    refusalOf runningA .start = some .startWhileRunning ∧ refusalOf runningA .tick = none ∧
    refusalOf readyA (.fbwr 4 1#8) = some .bufferAddressOutOfRange ∧ refusalOf readyA (.fbwr 3 1#8) = none ∧
    (∃ s : State, s.pending = [.op .tick] ∧ s.streaming = none ∧ s.refused = none ∧ s.phase = .running ∧
      s.timerEnabled = true) :=
  ⟨by decide, by decide, by decide, by decide, by decide, ⟨{ runningA with pending := [.op .tick] }, by decide⟩⟩

theorem witness_TimerIntervalIsNeverZero : readyA.Inv ∧ readyA.phase ≠ .uninit := ⟨readyA_inv, by decide⟩

theorem witness_LaunchStatesMeetTheInvariant : Memory.wf [(5, 0xEE#8)] = true ∧ Memory.wf [] = true := by decide

theorem witness_OwnedLinesReachThePins :
    (readyA.Inv ∧ readyA.phase ≠ .uninit) ∧ ∃ s : State, s.Inv ∧ s.phase = .uninit := by
  refine ⟨⟨readyA_inv, by decide⟩, ⟨launched, ⟨by decide, by decide, by decide, fun _ => ⟨rfl, rfl, rfl⟩, ?_, ?_, ?_, ?_, ?_⟩, rfl⟩⟩
  all_goals simp [launched, State.launch]

/-- A transition from between ticks, and a read inside one: both answer a next state. -/
theorem witness_StepKeepsTheInvariant :
    (∃ s t : State, s.Inv ∧ step s = .next t ∧ s.pending = [.op .tick]) ∧
    (∃ s t : State, s.Inv ∧ step s = .next t ∧ s.streaming.isSome = true ∧ s.pending = [.nextRead]) := by
  refine ⟨⟨{ runningA with pending := [.op .tick] }, _, ?_, rfl, rfl⟩,
    ⟨{ midTransition with pending := [.nextRead] }, _, ?_, rfl, rfl, rfl⟩⟩
  · exact ⟨runningA_inv.1, runningA_inv.2, runningA_inv.3, runningA_inv.4, runningA_inv.5, runningA_inv.6,
      runningA_inv.7, runningA_inv.8, runningA_inv.9⟩
  · exact ⟨midTransition_inv.1, midTransition_inv.2, midTransition_inv.3, midTransition_inv.4, midTransition_inv.5,
      midTransition_inv.6, midTransition_inv.7, midTransition_inv.8, midTransition_inv.9⟩

theorem witness_UnownedBitsAreNeverChanged :
    13 ∉ runningA.cfg.ownedPins ∧ runningA.pins.dir.getLsbD 0 = true ∧ ∃ t : State, runningA.Inv ∧ step runningA = .next t :=
  ⟨by decide, by decide, ⟨_, runningA_inv, rfl⟩⟩

/-- A step that emits and a step that does not. -/
theorem witness_TraceOnlyGrows :
    (∃ s t : State, step s = .next t ∧ s.pending = [.op .tick]) ∧ ∃ t : State, step readyA = .next t :=
  ⟨⟨{ runningA with pending := [.op .tick] }, _, rfl, rfl⟩, ⟨_, rfl⟩⟩

theorem witness_ConfigurationIsWrittenOnce :
    ∃ s t : State, step s = .next t ∧ s.phase ≠ .uninit ∧ s.pending = [.op (.init 1 1 1)] :=
  ⟨{ readyA with pending := [.op (.init 1 1 1)] }, _, rfl, by decide, rfl⟩

theorem witness_OnlyLifecycleCommandsMoveThePhase :
    (∃ s t : State, step s = .next t ∧ t.phase ≠ s.phase ∧ s.pending = [.op (.init 1 1 1)]) ∧
    (∃ s t : State, step s = .next t ∧ t.phase ≠ s.phase ∧ s.pending = [.op .start]) ∧
    (∃ s t : State, step s = .next t ∧ t.phase ≠ s.phase ∧ s.pending = [.op .stop]) :=
  ⟨⟨{ launched with pending := [.op (.init 1 1 1)] }, _, rfl, by decide, rfl⟩,
    ⟨{ readyA with pending := [.op .start] }, _, rfl, by decide, rfl⟩,
    ⟨{ runningA with pending := [.op .stop] }, _, rfl, by decide, rfl⟩⟩

theorem witness_FirstRefusalMarksTheRun :
    ∃ (s t : State) (r : RefusalReason), step s = .next t ∧ s.refused = some r ∧ s.pending = [.op .start] :=
  ⟨{ runningA with pending := [.op .start], refused := some .illegalCommand }, _, _, rfl, rfl, rfl⟩

theorem witness_OnlyPrimitivesWriteTheBuffer :
    ∃ s t : State, step s = .next t ∧ s.pending = [.op (.fbwr 3 1#8)] ∧ t.fb ≠ s.fb :=
  ⟨{ readyA with pending := [.op (.fbwr 3 1#8)] }, _, rfl, rfl, by decide⟩

theorem witness_OnlySchedulerAndStartMoveTheCursor :
    ∃ s t : State, step s = .next t ∧ s.pending = [.op .tick] ∧ t.cursor ≠ s.cursor :=
  ⟨{ runningA with pending := [.op .tick] }, _, rfl, rfl, by decide⟩

/-- A legal plane count, a pixel of the panel, and a configuration without and one with a gamma table. -/
theorem witness_BuiltConfigurationsAreWellFormed :
    (1 ≤ 6 ∧ 6 ≤ 6) ∧ (15 < Config.pinsetA.geometry.width ∧ 63 < Config.pinsetA.geometry.height) ∧
    Config.pinsetA.geometry.gamma = none ∧ ∃ (c : Config) (t : List Nat), c.geometry.gamma = some t :=
  ⟨by decide, by decide, rfl,
    ⟨{ Config.pinsetA with geometry := { Geometry.psetA with chBits := 2, gamma := some [0, 1, 2, 3] }, wf := by decide },
      _, rfl⟩⟩

/-- R264's example, where the red byte is outside; one where every byte is inside; and a pixel of a bank past `B`. -/
theorem witness_SetPixelOutsideTheSliceIsRefused :
    (∃ s : State, s.phase ≠ .uninit ∧ 0 < s.P ∧ 0 < s.cfg.geometry.width ∧ 0 < s.cfg.geometry.height ∧
      s.N ≤ s.cfg.pixelOffset 0 0 + 2 * 16 ∧ s.cfg.pixelOffset 0 0 + 1 * 16 < s.N) ∧
    (∃ s : State, s.phase ≠ .uninit ∧ 0 < s.P ∧ 15 < s.cfg.geometry.width ∧ 63 < s.cfg.geometry.height ∧
      s.cfg.pixelBank 63 < s.B ∧ s.cfg.pixelOffset 15 63 + 2 * 16 < s.N) ∧
    (∃ s : State, s.phase ≠ .uninit ∧ 0 < s.P ∧ 6 < s.cfg.geometry.height ∧ s.B ≤ s.cfg.pixelBank 6) :=
  ⟨⟨block Config.pinsetA 1 4 24 .ready 0x400#32 [], by decide⟩,
    ⟨block Config.pinsetA 1 4 96 .ready 0x400#32 [], by decide⟩,
    ⟨block Config.pinsetA 1 2 96 .ready 0x400#32 [], by decide⟩⟩

theorem witness_InterleavedControlLinesDoNotDependOnTheBuffer :
    (∃ s : State, s.cfg.fbInterleave = true ∧ s.phase = .running ∧ s.timerEnabled = true) ∧
    (∃ s : State, s.cfg.fbInterleave = true ∧ s.streaming.isSome = true ∧ s.pending = [.nextRead]) :=
  ⟨⟨block pinsI 1 2 2 .running 0x400#32 [], by decide⟩, ⟨{ midTransition with pending := [.nextRead] }, by decide⟩⟩

end Sys2Proof.Tests
end

/-! The frame buffer as an array of bytes (spec/00_scope.md R12). -/

namespace Sys2Proof.Machine

/-- Settles O8: both halves are the case split of `Memory.read_write`, at the written address and off it. -/
theorem bufferReadAfterWrite : Obligations.BufferReadAfterWrite := by
  intro m a v
  constructor
  · rw [Memory.read_write, if_pos rfl]
  · intro x hx
    rw [Memory.read_write, if_neg hx]

end Sys2Proof.Machine

/-! The port is written by the emitting primitives alone (spec/00_scope.md R13, spec/10_state.md R31). Every port sequence
of the model is a composition of them, so it is enough that the relation below holds of each primitive, is reflexive and
transitive, and passes through a loop. -/

namespace Sys2Proof.Machine

/-- `q` is `p` after emitting some words, newest first, the newest of which is the port. The words are compared as numbers,
so that the relation is meaningful between the ports of two states. -/
def Pins.EmitsTo {V W : Nat} (p : Pins V) (q : Pins W) : Prop :=
  ∃ ws : List Nat, q.emitted.map BitVec.toNat = ws ++ p.emitted.map BitVec.toNat ∧ q.port.toNat = ws.headD p.port.toNat

section emitsTo
variable {U V W : Nat}

theorem Pins.EmitsTo.refl (p : Pins W) : p.EmitsTo p := ⟨[], rfl, rfl⟩

theorem Pins.EmitsTo.trans {p : Pins U} {q : Pins V} {r : Pins W} (hpq : p.EmitsTo q) (hqr : q.EmitsTo r) :
    p.EmitsTo r := by
  obtain ⟨ws, hws, hq⟩ := hpq
  obtain ⟨us, hus, hr⟩ := hqr
  refine ⟨us ++ ws, by rw [hus, hws, List.append_assoc], ?_⟩
  cases us with
  | nil => exact hr.trans hq
  | cons u us => exact hr

/-! ### The primitives of R13 -/

/-- Setting the direction register emits nothing and leaves the port (R201). -/
theorem Pins.EmitsTo.driveOut {p : Pins V} {q : Pins W} (h : p.EmitsTo q) (m : PortWord W) : p.EmitsTo (q.driveOut m) := h

theorem Pins.EmitsTo.portWrite {p : Pins V} {q : Pins W} (h : p.EmitsTo q) (w : PortWord W) :
    p.EmitsTo (q.portWrite w) :=
  h.trans ⟨[w.toNat], rfl, rfl⟩

theorem Pins.EmitsTo.portSet {p : Pins V} {q : Pins W} (h : p.EmitsTo q) (m : PortWord W) : p.EmitsTo (q.portSet m) :=
  h.portWrite _

theorem Pins.EmitsTo.portClear {p : Pins V} {q : Pins W} (h : p.EmitsTo q) (m : PortWord W) :
    p.EmitsTo (q.portClear m) :=
  h.portWrite _

theorem Pins.EmitsTo.loopFor {p : Pins V} {f : Nat → Pins W → Pins W} (hf : ∀ i (q : Pins W), q.EmitsTo (f i q)) {q : Pins W}
    (h : p.EmitsTo q) (n : Nat) : p.EmitsTo (loopFor f n q) := by
  induction n with
  | zero => exact h
  | succ n ih => exact ih.trans (hf n _)

end emitsTo

/-! ### The port sequences -/

section sequences
variable (c : Config) (p : Pins c.width)

theorem idlePins_emitsTo : p.EmitsTo (idlePins c p) :=
  ((Pins.EmitsTo.refl p).driveOut _).portWrite _

theorem shiftControlBit_emitsTo (ctl : PortWord c.width) (cw : ControlWord) (chip j : Nat) :
    p.EmitsTo (shiftControlBit c ctl cw chip j p) :=
  (((Pins.EmitsTo.refl p).portWrite _).portSet _).portClear _

theorem shiftControlWord_emitsTo (ctl : PortWord c.width) (cw : ControlWord) (chip : Nat) :
    p.EmitsTo (shiftControlWord c ctl cw chip p) :=
  (Pins.EmitsTo.refl p).loopFor (fun j q => shiftControlBit_emitsTo c q ctl cw chip j) 16

theorem writeBankControl_emitsTo (cw : ControlWord) (b : Nat) : p.EmitsTo (writeBankControl c cw b p) :=
  (((Pins.EmitsTo.refl p).portWrite _).loopFor (fun chip q => shiftControlWord_emitsTo c q _ cw chip) c.chips).portClear _

theorem writeControl_emitsTo (cw : ControlWord) (B : Nat) : p.EmitsTo (writeControl c cw B p) :=
  (Pins.EmitsTo.refl p).loopFor (fun b q => writeBankControl_emitsTo c q cw b) B

theorem streamByte_emitsTo (base : PortWord c.width) (v : Byte) : p.EmitsTo (streamByte c base v p) :=
  ((Pins.EmitsTo.refl p).portWrite _).portSet _

theorem streamSlice_emitsTo (base : PortWord c.width) (fb : Memory) (sb n : Nat) :
    p.EmitsTo (streamSlice c base fb sb n p) :=
  (Pins.EmitsTo.refl p).loopFor (fun i q => streamByte_emitsTo c q base (fb.read (sb + i))) n

theorem finishTransition_emitsTo (b : Nat) : p.EmitsTo (finishTransition c b p) :=
  (((((Pins.EmitsTo.refl p).portClear _).portWrite _).portSet _).portClear _).portClear _

end sequences

/-! ### The steps of the block -/

theorem beginTransition_emitsTo (s : State) : s.pins.EmitsTo (beginTransition s).pins :=
  (Pins.EmitsTo.refl s.pins).portSet _

theorem streamAndFinish_emitsTo (s : State) : s.pins.EmitsTo (streamAndFinish s).pins :=
  (streamSlice_emitsTo s.cfg s.pins _ _ _ _).trans (finishTransition_emitsTo s.cfg _ s.bank)

/-- Leaving the reads to single steps emits nothing more than the transition's beginning (R58). -/
theorem transition_emitsTo (s : State) : s.pins.EmitsTo (transition s).pins := by
  by_cases hi : s.cfg.fbInterleave = true
  · rw [transition, if_pos hi]
    exact beginTransition_emitsTo s
  · rw [transition, if_neg hi]
    exact (beginTransition_emitsTo s).trans (streamAndFinish_emitsTo _)

theorem readStep_emitsTo (s : State) (r : Streaming s.cfg.width) : s.pins.EmitsTo (readStep s r).pins := by
  have hbyte := streamByte_emitsTo s.cfg s.pins r.base (s.fb.read (r.sb + r.offset))
  by_cases hr : r.offset + 1 < s.N
  · rw [readStep, if_pos hr]
    exact hbyte
  · rw [readStep, if_neg hr]
    exact hbyte.trans (finishTransition_emitsTo s.cfg _ s.bank)

/-- The buffer primitives do not touch the port (R121). -/
theorem exec_primitive_emitsTo {i : Instr} {s t : State} (hi : isBufferPrimitive i = true) (h : exec i s = .next t) :
    s.pins.EmitsTo t.pins := by
  obtain ⟨a, f, -, hexec⟩ := exec_primitive hi
  rw [hexec] at h
  obtain ⟨-, rfl⟩ | ⟨-, -, rfl⟩ | ⟨-, -, rfl⟩ := updateByte_cases h <;> exact .refl s.pins

theorem exec_emitsTo {i : Instr} {s t : State} (h : exec i s = .next t) : s.pins.EmitsTo t.pins := by
  cases i with
  | init p b n =>
    obtain ⟨-, rfl⟩ | ⟨-, -, rfl⟩ | ⟨-, -, rfl⟩ := execInit_cases h
    · exact .refl s.pins
    · exact .refl s.pins
    · exact idlePins_emitsTo s.cfg s.pins
  | setbrt pct =>
    obtain ⟨-, rfl⟩ | ⟨-, rfl⟩ | ⟨-, rfl⟩ := execSetbrt_cases h
    · exact .refl s.pins
    · exact .refl s.pins
    · exact writeControl_emitsTo s.cfg s.pins _ s.B
  | start => obtain ⟨-, rfl⟩ | ⟨-, rfl⟩ | ⟨-, rfl⟩ := execStart_cases h <;> exact .refl s.pins
  | stop => obtain ⟨-, rfl⟩ | ⟨-, rfl⟩ := execStop_cases h <;> exact .refl s.pins
  | tick =>
    obtain ⟨-, ⟨-, rfl⟩ | ⟨-, rfl⟩⟩ := execTick_cases h
    · exact .refl s.pins
    · exact transition_emitsTo s
  | fbset a m => exact exec_primitive_emitsTo rfl h
  | fbclr a m => exact exec_primitive_emitsTo rfl h
  | fbwr a v => exact exec_primitive_emitsTo rfl h

theorem step_emitsTo {s t : State} (h : step s = .next t) : s.pins.EmitsTo t.pins := by
  obtain ⟨-, rfl⟩ | ⟨c, rest, -, ⟨i, -, -, hexec⟩ | ⟨w, e, -, -, -, rfl⟩ | ⟨r, -, -, rfl⟩⟩ := step_cases h
  · exact .refl _
  · exact exec_emitsTo (s := s.popped rest) hexec
  · exact .refl s.pins
  · exact readStep_emitsTo (s.popped rest) r

/-- Settles O48: the words a step emits, oldest first, are what `trace` gains, and the newest of them is the port. -/
theorem traceOnlyGrows : Obligations.TraceOnlyGrows := by
  intro s t h
  obtain ⟨ws, hemitted, hport⟩ := step_emitsTo h
  refine ⟨ws.reverse, by simp [State.trace, List.map_reverse, hemitted], ?_⟩
  cases ws with
  | nil => simpa using hport
  | cons w ws => simpa using hport.symm

end Sys2Proof.Machine

/-! The cursor is written by TICK and START alone (spec/10_state.md R41). -/

namespace Sys2Proof.Machine

@[simp] theorem refuse_cursor (r : RefusalReason) (s : State) : (refuse r s).cursor = s.cursor := rfl
@[simp] theorem withFb_cursor (s : State) (m : Memory) : (s.withFb m).cursor = s.cursor := rfl
@[simp] theorem popped_cursor (s : State) (rest : List Command) : (s.popped rest).cursor = s.cursor := rfl

@[simp] theorem readStep_cursor (s : State) (r : Streaming s.cfg.width) : (readStep s r).cursor = s.cursor := by
  unfold readStep
  split <;> rfl

/-- A buffer primitive is refused or writes the buffer (R121). -/
theorem exec_primitive_cases {i : Instr} {s t : State} (hi : isBufferPrimitive i = true) (h : exec i s = .next t) :
    (∃ r, t = refuse r s) ∨ ∃ m, t = s.withFb m := by
  obtain ⟨a, f, -, hexec⟩ := exec_primitive hi
  rw [hexec] at h
  obtain ⟨-, rfl⟩ | ⟨-, -, rfl⟩ | ⟨-, -, rfl⟩ := updateByte_cases h
  · exact .inl ⟨_, rfl⟩
  · exact .inl ⟨_, rfl⟩
  · exact .inr ⟨_, rfl⟩

theorem exec_primitive_cursor {i : Instr} {s t : State} (hi : isBufferPrimitive i = true) (h : exec i s = .next t) :
    t.cursor = s.cursor := by
  obtain ⟨r, rfl⟩ | ⟨m, rfl⟩ := exec_primitive_cases hi h <;> simp

theorem exec_cursor {i : Instr} {s t : State} (h : exec i s = .next t) :
    t.cursor = s.cursor ∨ i = .tick ∨ (i = .start ∧ t.cursor = (0, 0, 0)) := by
  cases i with
  | init p b n => obtain ⟨-, rfl⟩ | ⟨-, -, rfl⟩ | ⟨-, -, rfl⟩ := execInit_cases h <;> exact .inl rfl
  | setbrt pct => obtain ⟨-, rfl⟩ | ⟨-, rfl⟩ | ⟨-, rfl⟩ := execSetbrt_cases h <;> exact .inl rfl
  | start =>
    obtain ⟨-, rfl⟩ | ⟨-, rfl⟩ | ⟨-, rfl⟩ := execStart_cases h
    · exact .inl rfl
    · exact .inl rfl
    · exact .inr (.inr ⟨rfl, rfl⟩)
  | stop => obtain ⟨-, rfl⟩ | ⟨-, rfl⟩ := execStop_cases h <;> exact .inl rfl
  | tick => exact .inr (.inl rfl)
  | fbset a m => exact .inl (exec_primitive_cursor rfl h)
  | fbclr a m => exact .inl (exec_primitive_cursor rfl h)
  | fbwr a v => exact .inl (exec_primitive_cursor rfl h)

/-- Settles O53: of what a step can do, only an operation can write the cursor, and of the operations only TICK and
START. -/
theorem onlySchedulerAndStartMoveTheCursor : Obligations.OnlySchedulerAndStartMoveTheCursor := by
  intro s t h
  obtain ⟨-, rfl⟩ | ⟨c, rest, hpending, ⟨i, hi, -, hexec⟩ | ⟨w, e, -, -, -, rfl⟩ | ⟨r, -, -, rfl⟩⟩ := step_cases h
  · exact .inl rfl
  · obtain hsame | rfl | ⟨rfl, hzero⟩ := exec_cursor hexec
    · exact .inl hsame
    · exact .inr ⟨c, rest, hpending, .inl hi⟩
    · exact .inr ⟨c, rest, hpending, .inr ⟨hi, hzero⟩⟩
  · exact .inl (by simp)
  · exact .inl (readStep_cursor (s.popped rest) r)

end Sys2Proof.Machine

/-! The unowned bits of the two registers (spec/10_state.md R25, R26). Every mask of the model has owned bits only, and
every full word written takes its other bits from the port, so each port sequence keeps the unowned bits; the sequences'
words are those of `Laws/Sequences`. An interleaved transition writes the base it sampled when it began, whose unowned
bits are the port's by the invariant. -/

namespace Sys2Proof

/-- Off the owned lines every mask of R15 and every word of the table is 0. -/
theorem Config.masks_unowned (c : Config) {i : Nat} (hi : i ∉ c.ownedPins) :
    c.clk.getLsbD i = false ∧ c.lat.getLsbD i = false ∧ c.oe.getLsbD i = false ∧ c.addrMask.getLsbD i = false ∧
    c.dataMask.getLsbD i = false ∧ c.ownedMask.getLsbD i = false ∧ (∀ b, (c.addr b).getLsbD i = false) ∧
    ∀ v, (c.tableWord v).getLsbD i = false := by
  have hlines := hi
  simp only [Params.ownedPins, Params.controlPins, List.mem_append, List.mem_cons, List.not_mem_nil, or_false,
    not_or] at hlines
  obtain ⟨hdata, hctl⟩ := hlines
  simp [c.clk_bit, c.lat_bit, c.oe_bit, c.addrMask_bit, c.addr_bit, c.dataMask_bit, c.ownedMask_bit,
    c.tableWord_off _ hdata, hdata, hctl, hi]

theorem Config.unowned_eq_of_masked_eq (c : Config) {x y : PortWord c.width}
    (h : x &&& ~~~c.ownedMask = y &&& ~~~c.ownedMask) {i : Nat} (hi : i ∉ c.ownedPins) : x.getLsbD i = y.getLsbD i := by
  simpa [-BitVec.getLsbD_and, getLsbD_andNot, c.masks_unowned hi] using congrArg (·.getLsbD i) h

end Sys2Proof

namespace Sys2Proof.Machine

/-- `q` has the unowned bits of `p` in both registers and drives every line that `p` drives. -/
structure Pins.KeepsUnowned {V W : Nat} (c : Config) (p : Pins V) (q : Pins W) : Prop where
  port : ∀ i, i ∉ c.ownedPins → q.port.getLsbD i = p.port.getLsbD i
  dir : ∀ i, i ∉ c.ownedPins → q.dir.getLsbD i = p.dir.getLsbD i
  driven : ∀ i, p.dir.getLsbD i = true → q.dir.getLsbD i = true

section keepsUnowned
variable {U V W : Nat} {c : Config}

theorem Pins.KeepsUnowned.refl (p : Pins W) : p.KeepsUnowned c p := ⟨fun _ _ => rfl, fun _ _ => rfl, fun _ => id⟩

theorem Pins.KeepsUnowned.trans {p : Pins U} {q : Pins V} {r : Pins W} (hpq : p.KeepsUnowned c q)
    (hqr : q.KeepsUnowned c r) : p.KeepsUnowned c r where
  port i hi := (hqr.port i hi).trans (hpq.port i hi)
  dir i hi := (hqr.dir i hi).trans (hpq.dir i hi)
  driven i hd := hqr.driven i (hpq.driven i hd)

/-- Every sequence but INIT's leaves the direction register alone. -/
theorem Pins.KeepsUnowned.of_dir_eq {p q : Pins W} (hdir : q.dir = p.dir)
    (hport : ∀ i, i ∉ c.ownedPins → q.port.getLsbD i = p.port.getLsbD i) : p.KeepsUnowned c q :=
  ⟨hport, fun i _ => by rw [hdir], fun i hi => by rwa [hdir]⟩

end keepsUnowned

section sequencesKeep
variable (c : Config) (p : Pins c.width)

theorem idlePins_keepsUnowned : p.KeepsUnowned c (idlePins c p) where
  port i hi := by simp [-BitVec.getLsbD_and, idlePins, getLsbD_andNot, c.masks_unowned hi]
  dir i hi := by simp [idlePins, c.masks_unowned hi]
  driven i hd := by simp [idlePins, hd]

theorem portSet_oe_keepsUnowned : p.KeepsUnowned c (p.portSet c.oe) :=
  .of_dir_eq rfl fun i hi => by simp [c.masks_unowned hi]

theorem writeControl_keepsUnowned (cw : ControlWord) (B : Nat) : p.KeepsUnowned c (writeControl c cw B p) := by
  obtain ⟨hdir, -, hmasked, -⟩ := writeControl_spec c cw B p
  exact .of_dir_eq hdir fun i => c.unowned_eq_of_masked_eq hmasked

/-- A streamed byte writes the base's unowned bits, wherever the port's were (R148). -/
theorem streamByte_keepsUnowned {base : PortWord c.width}
    (hbase : ∀ i, i ∉ c.ownedPins → base.getLsbD i = p.port.getLsbD i) (v : Byte) :
    p.KeepsUnowned c (streamByte c base v p) :=
  .of_dir_eq rfl fun i hi => by simp [c.masks_unowned hi, hbase i hi]

theorem sampledBase_unowned (port : PortWord c.width) {i : Nat} (hi : i ∉ c.ownedPins) :
    (sampledBase c port).getLsbD i = port.getLsbD i := by
  simp [-BitVec.getLsbD_and, sampledBase, getLsbD_andNot, c.masks_unowned hi]

/-- A slice streamed with the base sampled from the port at its beginning; an empty one writes nothing. -/
theorem streamSlice_keepsUnowned (fb : Memory) (sb n : Nat) :
    p.KeepsUnowned c (streamSlice c (sampledBase c p.port) fb sb n p) := by
  cases n with
  | zero => exact .refl p
  | succ n =>
    obtain ⟨hdir, -, hport⟩ := streamSlice_spec c (sampledBase c p.port) fb sb (n + 1) p
    exact .of_dir_eq hdir fun i hi => by
      simp [hport n.succ_pos, c.masks_unowned hi, sampledBase_unowned c p.port hi]

theorem finishTransition_keepsUnowned (b : Nat) : p.KeepsUnowned c (finishTransition c b p) := by
  obtain ⟨hdir, -, hport⟩ := finishTransition_spec c b p
  exact .of_dir_eq hdir fun i hi => by simp [-BitVec.getLsbD_and, hport, getLsbD_andNot, c.masks_unowned hi]

end sequencesKeep

theorem transition_keepsUnowned (s : State) : s.pins.KeepsUnowned s.cfg (transition s).pins := by
  have hbegin := portSet_oe_keepsUnowned s.cfg s.pins
  by_cases hi : s.cfg.fbInterleave = true
  · rw [transition, if_pos hi]
    exact hbegin
  · rw [transition, if_neg hi]
    exact hbegin.trans ((streamSlice_keepsUnowned s.cfg _ _ _ _).trans (finishTransition_keepsUnowned s.cfg _ _))

/-- The base of a transition going on was sampled before the read; that its unowned bits are still the port's is the
invariant's part here. -/
theorem readStep_keepsUnowned {s : State} (r : Streaming s.cfg.width)
    (hbase : ∀ i, i ∉ s.cfg.ownedPins → r.base.getLsbD i = s.pins.port.getLsbD i) :
    s.pins.KeepsUnowned s.cfg (readStep s r).pins := by
  have hbyte := streamByte_keepsUnowned s.cfg s.pins hbase (s.fb.read (r.sb + r.offset))
  by_cases hr : r.offset + 1 < s.N
  · rw [readStep, if_pos hr]
    exact hbyte
  · rw [readStep, if_neg hr]
    exact hbyte.trans (finishTransition_keepsUnowned s.cfg _ s.bank)

theorem State.Inv.base_unowned {s : State} (hinv : s.Inv) {r : Streaming s.cfg.width} (hr : s.streaming = some r)
    {i : Nat} (hi : i ∉ s.cfg.ownedPins) : r.base.getLsbD i = s.pins.port.getLsbD i := by
  obtain ⟨-, -, -, -, -, -, -, -, -, hmasked⟩ := hinv.readsInSlice r hr
  exact s.cfg.unowned_eq_of_masked_eq hmasked hi

theorem exec_primitive_keepsUnowned {i : Instr} {s t : State} (hi : isBufferPrimitive i = true)
    (h : exec i s = .next t) : s.pins.KeepsUnowned s.cfg t.pins := by
  obtain ⟨r, rfl⟩ | ⟨m, rfl⟩ := exec_primitive_cases hi h <;> exact .refl s.pins

/-- No operation needs the invariant for this. -/
theorem exec_keepsUnowned {i : Instr} {s t : State} (h : exec i s = .next t) : s.pins.KeepsUnowned s.cfg t.pins := by
  cases i with
  | init p b n =>
    obtain ⟨-, rfl⟩ | ⟨-, -, rfl⟩ | ⟨-, -, rfl⟩ := execInit_cases h
    · exact .refl s.pins
    · exact .refl s.pins
    · exact idlePins_keepsUnowned s.cfg s.pins
  | setbrt pct =>
    obtain ⟨-, rfl⟩ | ⟨-, rfl⟩ | ⟨-, rfl⟩ := execSetbrt_cases h
    · exact .refl s.pins
    · exact .refl s.pins
    · exact writeControl_keepsUnowned s.cfg s.pins _ s.B
  | start => obtain ⟨-, rfl⟩ | ⟨-, rfl⟩ | ⟨-, rfl⟩ := execStart_cases h <;> exact .refl s.pins
  | stop => obtain ⟨-, rfl⟩ | ⟨-, rfl⟩ := execStop_cases h <;> exact .refl s.pins
  | tick =>
    obtain ⟨-, ⟨-, rfl⟩ | ⟨-, rfl⟩⟩ := execTick_cases h
    · exact .refl s.pins
    · exact transition_keepsUnowned s
  | fbset a m => exact exec_primitive_keepsUnowned rfl h
  | fbclr a m => exact exec_primitive_keepsUnowned rfl h
  | fbwr a v => exact exec_primitive_keepsUnowned rfl h

theorem step_keepsUnowned {s t : State} (hinv : s.Inv) (h : step s = .next t) :
    s.pins.KeepsUnowned s.cfg t.pins := by
  obtain ⟨-, rfl⟩ | ⟨c, rest, -, ⟨i, -, -, hexec⟩ | ⟨w, e, -, -, -, rfl⟩ | ⟨r, -, hr, rfl⟩⟩ := step_cases h
  · exact .refl _
  · exact exec_keepsUnowned (s := s.popped rest) hexec
  · exact .refl s.pins
  · exact readStep_keepsUnowned (s := s.popped rest) r fun _ => hinv.base_unowned hr

/-- Settles O47: no operation changes an unowned bit, and by the invariant no read of an interleaved transition does. -/
theorem unownedBitsAreNeverChanged : Obligations.UnownedBitsAreNeverChanged := by
  intro s t hinv h
  obtain ⟨hport, hdir, hdriven⟩ := step_keepsUnowned hinv h
  exact ⟨hport, hdir, hdriven⟩

end Sys2Proof.Machine

/-! ### The slice of a cursor (R52) -/

namespace Sys2Proof.Machine

/-- A read of a slice is at the row-major address (R51) of the reduced plane and bank. -/
theorem sbase_add (P B N p b i : Nat) : sbase P B N p b + i = fbAddress B N (p % P) (b % B) i := rfl

theorem sbase_eq_fbAddress {P B p b : Nat} (N : Nat) (hp : p < P) (hb : b < B) :
    sbase P B N p b = fbAddress B N p b 0 := by
  rw [← Nat.add_zero (sbase P B N p b), sbase_add, Nat.mod_eq_of_lt hp, Nat.mod_eq_of_lt hb]

/-- The reduced indices are in range whatever the cursor holds. -/
theorem sbase_add_lt {P B N i : Nat} (p b : Nat) (hP : 0 < P) (hB : 0 < B) (hi : i < N) :
    sbase P B N p b + i < P * B * N := by
  rw [sbase_add]
  exact fbAddress_lt (Nat.mod_lt p hP) (Nat.mod_lt b hB) hi

theorem bytesFrom_length (fb : Memory) (sb n : Nat) : (bytesFrom fb sb n).length = n := by
  simp [bytesFrom]

theorem bytesFrom_getElem? (fb : Memory) (sb : Nat) {n i : Nat} (hi : i < n) :
    (bytesFrom fb sb n)[i]? = some (fb.read (sb + i)) := by
  simp [bytesFrom, List.getElem?_range hi]

/-- Settles O12: a slice is `bytesFrom` its base, and reducing the indices puts each of its reads at an address in
range. -/
theorem sliceReadsStayInTheBuffer : Obligations.SliceReadsStayInTheBuffer := by
  intro fb P B N p b hP hB
  rw [sliceBytes_eq]
  exact ⟨bytesFrom_length fb _ N, fun i hi => ⟨bytesFrom_getElem? fb _ hi, sbase_add_lt p b hP hB hi⟩,
    sbase_eq_fbAddress N⟩

end Sys2Proof.Machine

/-! The command word and its operation (spec/30_encoding.md R95, R96). A row of the table fixes the operation code and
some zero bits of a word; the fields it leaves open are the operands. -/

namespace Sys2Proof

/-! ### Parts of a word -/

/-- Two adjacent parts make one. -/
theorem extractLsb'_congr_add {W lo m n : Nat} {x y : BitVec W} (hlo : x.extractLsb' lo m = y.extractLsb' lo m)
    (hhi : x.extractLsb' (lo + m) n = y.extractLsb' (lo + m) n) :
    x.extractLsb' lo (n + m) = y.extractLsb' lo (n + m) := by
  rw [← BitVec.extractLsb'_append_extractLsb'_eq_extractLsb' rfl, hhi, hlo,
    BitVec.extractLsb'_append_extractLsb'_eq_extractLsb' rfl]

theorem word_eq_of_extractLsb' {x y : CommandWord} (h : x.extractLsb' 0 32 = y.extractLsb' 0 32) : x = y := by
  simpa only [BitVec.extractLsb'_eq_self] using h

theorem word_eq_iff {x y : CommandWord} :
    x = y ↔ x.extractLsb' 28 4 = y.extractLsb' 28 4 ∧ x.extractLsb' 0 28 = y.extractLsb' 0 28 := by
  refine ⟨by rintro rfl; exact ⟨rfl, rfl⟩, fun ⟨hhi, hlo⟩ => ?_⟩
  exact word_eq_of_extractLsb' (extractLsb'_congr_add hlo hhi)

theorem extractLsb'_append_add {m n : Nat} (x : BitVec m) (y : BitVec n) (lo len : Nat) :
    (x ++ y).extractLsb' (n + lo) len = x.extractLsb' lo len := by
  rw [BitVec.extractLsb'_append_eq_of_le (Nat.le_add_right n lo), Nat.add_sub_cancel_left]

theorem extractLsb'_append_middle {l m n : Nat} (x : BitVec l) (y : BitVec m) (z : BitVec n) :
    (x ++ y ++ z).extractLsb' n m = y :=
  (extractLsb'_append_add (x ++ y) z 0 m).trans BitVec.extractLsb'_append_eq_right

theorem field_lt (w : CommandWord) (lo len : Nat) : field w lo len < 2 ^ len :=
  (w.extractLsb' lo len).isLt

theorem extractLsb'_eq_of_field_eq {x y : CommandWord} {lo len : Nat} (h : field x lo len = field y lo len) :
    x.extractLsb' lo len = y.extractLsb' lo len :=
  BitVec.eq_of_toNat_eq h

/-! ### The words a row spells -/

/-- Two words of one row agree on every part the row's mask covers. -/
theorem OpcodeRow.extractLsb'_congr (r : OpcodeRow) {x y : CommandWord} (hx : r.spelledBy x = true)
    (hy : r.spelledBy y = true) {lo len : Nat} (hmask : r.mask.extractLsb' lo len = BitVec.allOnes len) :
    x.extractLsb' lo len = y.extractLsb' lo len := by
  have hxy : x &&& r.mask = y &&& r.mask := (beq_iff_eq.1 hx).trans (beq_iff_eq.1 hy).symm
  simpa only [BitVec.extractLsb'_and, hmask, BitVec.and_allOnes] using congrArg (·.extractLsb' lo len) hxy

/-- The four bits of the operation code apart from the fixed zero bits. -/
theorem OpcodeRow.spelledBy_iff {r : OpcodeRow} {w : CommandWord}
    (hmask : r.mask.extractLsb' 28 4 = BitVec.allOnes 4) (hpattern : r.pattern.extractLsb' 0 28 = 0#28) :
    r.spelledBy w = true ↔
      w.extractLsb' 28 4 = r.pattern.extractLsb' 28 4 ∧ w &&& (r.mask &&& 0x0FFFFFFF#32) = 0#32 := by
  have hhi : (0x0FFFFFFF#32).extractLsb' 28 4 = 0#4 := rfl
  have hlo : (0x0FFFFFFF#32).extractLsb' 0 28 = BitVec.allOnes 28 := rfl
  rw [OpcodeRow.spelledBy, beq_iff_eq, word_eq_iff, word_eq_iff (y := 0#32)]
  simp only [BitVec.extractLsb'_and, BitVec.extractLsb'_zero, hmask, hpattern, hhi, hlo, BitVec.and_allOnes,
    BitVec.and_zero, true_and]

@[simp] theorem initRow_spelledBy (w : CommandWord) :
    initRow.spelledBy w = true ↔ w.extractLsb' 28 4 = 1#4 ∧ w &&& 0x0F880000#32 = 0#32 :=
  OpcodeRow.spelledBy_iff rfl rfl

@[simp] theorem setbrtRow_spelledBy (w : CommandWord) :
    setbrtRow.spelledBy w = true ↔ w.extractLsb' 28 4 = 2#4 ∧ w &&& 0x0FFFFF00#32 = 0#32 :=
  OpcodeRow.spelledBy_iff rfl rfl

@[simp] theorem startRow_spelledBy (w : CommandWord) :
    startRow.spelledBy w = true ↔ w.extractLsb' 28 4 = 3#4 ∧ w &&& 0x0FFFFFFF#32 = 0#32 :=
  OpcodeRow.spelledBy_iff rfl rfl

@[simp] theorem stopRow_spelledBy (w : CommandWord) :
    stopRow.spelledBy w = true ↔ w.extractLsb' 28 4 = 4#4 ∧ w &&& 0x0FFFFFFF#32 = 0#32 :=
  OpcodeRow.spelledBy_iff rfl rfl

@[simp] theorem tickRow_spelledBy (w : CommandWord) :
    tickRow.spelledBy w = true ↔ w.extractLsb' 28 4 = 5#4 ∧ w &&& 0x0FFFFFFF#32 = 0#32 :=
  OpcodeRow.spelledBy_iff rfl rfl

@[simp] theorem fbsetRow_spelledBy (w : CommandWord) : fbsetRow.spelledBy w = true ↔ w.extractLsb' 28 4 = 6#4 :=
  (OpcodeRow.spelledBy_iff rfl rfl).trans (and_iff_left BitVec.and_zero)

@[simp] theorem fbclrRow_spelledBy (w : CommandWord) : fbclrRow.spelledBy w = true ↔ w.extractLsb' 28 4 = 7#4 :=
  (OpcodeRow.spelledBy_iff rfl rfl).trans (and_iff_left BitVec.and_zero)

@[simp] theorem fbwrRow_spelledBy (w : CommandWord) : fbwrRow.spelledBy w = true ↔ w.extractLsb' 28 4 = 8#4 :=
  (OpcodeRow.spelledBy_iff rfl rfl).trans (and_iff_left BitVec.and_zero)

/-! ### The operands a word holds -/

/-- The operation of `i`'s row with the operands in the fields of `w`. -/
def Instr.withOperandsOf (w : CommandWord) : Instr → Instr
  | .init _ _ _ => .init (field w 16 3) (field w 20 3) (field w 0 16)
  | .setbrt _ => .setbrt (byteField w)
  | .start => .start
  | .stop => .stop
  | .tick => .tick
  | .fbset _ _ => .fbset (field w 8 20) (byteField w)
  | .fbclr _ _ => .fbclr (field w 8 20) (byteField w)
  | .fbwr _ _ => .fbwr (field w 8 20) (byteField w)

theorem Instr.withOperandsOf_wellFormed (w : CommandWord) (i : Instr) : (i.withOperandsOf w).wellFormed = true := by
  have haddress : decide (field w 8 20 < 1048576) = true := decide_eq_true (field_lt w 8 20)
  cases i with
  | init p b n =>
    have hp : field w 16 3 < 8 := field_lt w 16 3
    have hb : field w 20 3 < 8 := field_lt w 20 3
    have hn : field w 0 16 < 65536 := field_lt w 0 16
    simp [withOperandsOf, wellFormed, hp, hb, hn]
  | setbrt pct => rfl
  | start => rfl
  | stop => rfl
  | tick => rfl
  | fbset a m => exact haddress
  | fbclr a m => exact haddress
  | fbwr a v => exact haddress

/-! ### The decoder, row by row -/

/-- The rows exclude each other by their operation codes, so the order of the decoder's tests does not matter. -/
theorem decode_of_spelledBy {w : CommandWord} {i : Instr} (h : i.row.spelledBy w = true) :
    decode w = .ok (i.withOperandsOf w) := by
  cases i <;>
    simp only [Instr.row, initRow_spelledBy, setbrtRow_spelledBy, startRow_spelledBy, stopRow_spelledBy,
      tickRow_spelledBy, fbsetRow_spelledBy, fbclrRow_spelledBy, fbwrRow_spelledBy] at h <;>
    simp [decode, Instr.withOperandsOf, h]

theorem spelledBy_of_decode {w : CommandWord} {i : Instr} (h : decode w = .ok i) :
    i.row.spelledBy w = true ∧ i.withOperandsOf w = i := by
  unfold decode at h
  split_ifs at h <;> cases h <;> exact ⟨‹_›, rfl⟩

theorem decode_error_iff {w : CommandWord} :
    (∃ e, decode w = .error e) ↔ ∀ r ∈ opcodeRows, ¬ r.spelledBy w = true := by
  simp only [opcodeRows, List.forall_mem_cons, decode]
  split_ifs <;> simp [*]

/-! ### The encoder's fields -/

theorem field_address (code : BitVec 4) (a : Nat) (m : Byte) :
    field (code ++ BitVec.ofNat 20 a ++ m) 8 20 = a % 1048576 :=
  congrArg BitVec.toNat (extractLsb'_append_middle code (BitVec.ofNat 20 a) m)

theorem byteField_append (high : BitVec 24) (m : Byte) : byteField (high ++ m) = m :=
  BitVec.extractLsb'_append_eq_right

theorem field_planeCount (p b n : Nat) : field (encode (.init p b n)) 16 3 = p % 8 :=
  congrArg BitVec.toNat (extractLsb'_append_middle _ (BitVec.ofNat 3 p) (BitVec.ofNat 16 n))

theorem field_bankCount (p b n : Nat) : field (encode (.init p b n)) 20 3 = b % 8 := by
  have h : (encode (.init p b n)).extractLsb' 20 3 = BitVec.ofNat 3 b :=
    calc (encode (.init p b n)).extractLsb' 20 3
      _ = (0x1#4 ++ 0x0#5 ++ BitVec.ofNat 3 b ++ 0x0#1 ++ BitVec.ofNat 3 p).extractLsb' 4 3 :=
        extractLsb'_append_add _ (BitVec.ofNat 16 n) 4 3
      _ = (0x1#4 ++ 0x0#5 ++ BitVec.ofNat 3 b ++ 0x0#1).extractLsb' 1 3 :=
        extractLsb'_append_add _ (BitVec.ofNat 3 p) 1 3
      _ = BitVec.ofNat 3 b := extractLsb'_append_middle _ (BitVec.ofNat 3 b) 0x0#1
  exact congrArg BitVec.toNat h

theorem field_bytesPerBankPlane (p b n : Nat) : field (encode (.init p b n)) 0 16 = n % 65536 :=
  congrArg BitVec.toNat (BitVec.extractLsb'_append_eq_right (b := BitVec.ofNat 16 n))

/-- Nothing is cut from an argument that fits its field. -/
theorem Instr.withOperandsOf_encode {i : Instr} (h : i.wellFormed = true) : i.withOperandsOf (encode i) = i := by
  cases i with
  | init p b n =>
    obtain ⟨⟨hp, hb⟩, hn⟩ : (p < 8 ∧ b < 8) ∧ n < 65536 := by simpa [wellFormed] using h
    rw [withOperandsOf, field_planeCount, field_bankCount, field_bytesPerBankPlane, Nat.mod_eq_of_lt hp,
      Nat.mod_eq_of_lt hb, Nat.mod_eq_of_lt hn]
  | setbrt pct => exact congrArg setbrt (byteField_append _ pct)
  | start => rfl
  | stop => rfl
  | tick => rfl
  | fbset a m =>
    rw [withOperandsOf, encode, field_address, byteField_append, Nat.mod_eq_of_lt (of_decide_eq_true h)]
  | fbclr a m =>
    rw [withOperandsOf, encode, field_address, byteField_append, Nat.mod_eq_of_lt (of_decide_eq_true h)]
  | fbwr a v =>
    rw [withOperandsOf, encode, field_address, byteField_append, Nat.mod_eq_of_lt (of_decide_eq_true h)]

theorem encode_spelledBy (i : Instr) : i.row.spelledBy (encode i) = true := by
  cases i with
  | init p b n => exact Laws.EncodeFitsRow.init p b n
  | setbrt pct => exact Laws.EncodeFitsRow.setbrt pct
  | start => exact Laws.EncodeFitsRow.start
  | stop => exact Laws.EncodeFitsRow.stop
  | tick => exact Laws.EncodeFitsRow.tick
  | fbset a m => exact Laws.EncodeFitsRow.fbset a m
  | fbclr a m => exact Laws.EncodeFitsRow.fbclr a m
  | fbwr a v => exact Laws.EncodeFitsRow.fbwr a v

theorem decode_encode {i : Instr} (h : i.wellFormed = true) : decode (encode i) = .ok i := by
  rw [decode_of_spelledBy (encode_spelledBy i), Instr.withOperandsOf_encode h]

/-- Settles O2: the encoded word is spelled by the operation's row, and its fields hold the operands. -/
theorem encodedOperationDecodesBack : Obligations.EncodedOperationDecodesBack :=
  fun _ => decode_encode

/-! ### A word is determined by its row and its operands -/

theorem word_eq_of_address_byte {x y : CommandWord} (hcode : x.extractLsb' 28 4 = y.extractLsb' 28 4)
    (haddress : field x 8 20 = field y 8 20) (hbyte : byteField x = byteField y) : x = y :=
  word_eq_iff.2 ⟨hcode, extractLsb'_congr_add (m := 8) hbyte (extractLsb'_eq_of_field_eq haddress)⟩

/-- The fixed parts and the operand fields of a row together are the whole word. -/
theorem word_eq_of_row_of_operands {i : Instr} {x y : CommandWord} (hx : i.row.spelledBy x = true)
    (hy : i.row.spelledBy y = true) (h : i.withOperandsOf x = i.withOperandsOf y) : x = y := by
  cases i with
  | init p b n =>
    obtain ⟨hp, hb, hn⟩ := Instr.init.inj h
    have hbit19 : x.extractLsb' 19 1 = y.extractLsb' 19 1 := initRow.extractLsb'_congr hx hy rfl
    have htop : x.extractLsb' 23 9 = y.extractLsb' 23 9 := initRow.extractLsb'_congr hx hy rfl
    have hnp : x.extractLsb' 0 19 = y.extractLsb' 0 19 :=
      extractLsb'_congr_add (extractLsb'_eq_of_field_eq hn) (extractLsb'_eq_of_field_eq hp)
    have hlow : x.extractLsb' 0 23 = y.extractLsb' 0 23 :=
      extractLsb'_congr_add (m := 20) (extractLsb'_congr_add hnp hbit19) (extractLsb'_eq_of_field_eq hb)
    exact word_eq_of_extractLsb' (extractLsb'_congr_add hlow htop)
  | setbrt pct =>
    have htop : x.extractLsb' 8 24 = y.extractLsb' 8 24 := setbrtRow.extractLsb'_congr hx hy rfl
    exact word_eq_of_extractLsb' (extractLsb'_congr_add (m := 8) (Instr.setbrt.inj h) htop)
  | start => exact word_eq_of_extractLsb' (startRow.extractLsb'_congr hx hy rfl)
  | stop => exact word_eq_of_extractLsb' (stopRow.extractLsb'_congr hx hy rfl)
  | tick => exact word_eq_of_extractLsb' (tickRow.extractLsb'_congr hx hy rfl)
  | fbset a m =>
    obtain ⟨haddress, hbyte⟩ := Instr.fbset.inj h
    exact word_eq_of_address_byte (fbsetRow.extractLsb'_congr hx hy rfl) haddress hbyte
  | fbclr a m =>
    obtain ⟨haddress, hbyte⟩ := Instr.fbclr.inj h
    exact word_eq_of_address_byte (fbclrRow.extractLsb'_congr hx hy rfl) haddress hbyte
  | fbwr a v =>
    obtain ⟨haddress, hbyte⟩ := Instr.fbwr.inj h
    exact word_eq_of_address_byte (fbwrRow.extractLsb'_congr hx hy rfl) haddress hbyte

/-- Settles O3: the operation's fields bound its operands, and its own encoding has the word's row and operands. -/
theorem decodedWordIsItsEncoding : Obligations.DecodedWordIsItsEncoding := by
  intro w i h
  obtain ⟨hrow, hoperands⟩ := spelledBy_of_decode h
  have hwf : i.wellFormed = true := hoperands ▸ i.withOperandsOf_wellFormed w
  have hencoded : i.withOperandsOf (encode i) = i.withOperandsOf w := by
    rw [Instr.withOperandsOf_encode hwf, hoperands]
  exact ⟨hwf, word_eq_of_row_of_operands (encode_spelledBy i) hrow hencoded⟩

/-- Settles O1: each word is evaluated. -/
theorem sampleCommandWordsDecode : Obligations.SampleCommandWordsDecode := by
  unfold Obligations.SampleCommandWordsDecode
  decide

/-! ### Reserved words -/

theorem opcode_cases : ∀ code : BitVec 4, code = 0#4 ∨ 9#4 ≤ code ∨ code = 1#4 ∨ code = 2#4 ∨ code = 3#4 ∨
    code = 4#4 ∨ code = 5#4 ∨ code = 6#4 ∨ code = 7#4 ∨ code = 8#4 := by
  decide

/-- The list of R96, one operation code after another. -/
theorem forall_not_spelledBy_iff (w : CommandWord) :
    (∀ r ∈ opcodeRows, ¬ r.spelledBy w = true) ↔
    (w.extractLsb' 28 4 = 0#4 ∨ 9#4 ≤ w.extractLsb' 28 4 ∨
     (w.extractLsb' 28 4 = 1#4 ∧ w &&& 0x0F880000#32 ≠ 0#32) ∨
     (w.extractLsb' 28 4 = 2#4 ∧ w &&& 0x0FFFFF00#32 ≠ 0#32) ∨
     ((w.extractLsb' 28 4 = 3#4 ∨ w.extractLsb' 28 4 = 4#4 ∨ w.extractLsb' 28 4 = 5#4) ∧
       w &&& 0x0FFFFFFF#32 ≠ 0#32)) := by
  simp only [opcodeRows, List.forall_mem_cons, initRow_spelledBy, setbrtRow_spelledBy, startRow_spelledBy,
    stopRow_spelledBy, tickRow_spelledBy, fbsetRow_spelledBy, fbclrRow_spelledBy, fbwrRow_spelledBy]
  generalize w.extractLsb' 28 4 = code
  obtain rfl | hcode | rfl | rfl | rfl | rfl | rfl | rfl | rfl | rfl := opcode_cases code
  case inr.inl =>
    have hne {k : BitVec 4} (hk : k < 9#4) : code ≠ k := by
      rintro rfl
      exact BitVec.not_lt.2 hcode hk
    simp [hcode, hne]
  all_goals simp

end Sys2Proof

namespace Sys2Proof.Machine

theorem step_of_reserved_word {s : State} {w : CommandWord} {rest : List Command} {e : DecodeError}
    (hidle : s.streaming = none) (hnext : s.pending = .word w :: rest) (h : decode w = .error e) :
    step s = .next (refuse .illegalCommand (s.popped rest)) := by
  simp [step_cons hnext, deliver, deliverWord, h, hidle]

theorem legalGeometry_iff {p b n : Nat} :
    legalGeometry p b n = true ↔ 1 ≤ p ∧ p ≤ 6 ∧ 1 ≤ b ∧ b ≤ 4 ∧ n ≠ 0 := by
  simp [legalGeometry, Nat.one_le_iff_ne_zero, and_assoc]

theorem exec_init_of_bad_geometry {p b n : Nat} {s : State} (hphase : s.phase = .uninit)
    (h : legalGeometry p b n = false) : exec (.init p b n) s = .next (refuse .badConfiguration s) := by
  simp [exec, execInit, hphase, h]

/-- Settles O4: a word is rejected when no row spells it, which by its operation code is the list of R96. -/
theorem reservedWordsAreRefused : Obligations.ReservedWordsAreRefused := by
  refine ⟨fun w => decode_error_iff.trans (forall_not_spelledBy_iff w), fun s w rest e => step_of_reserved_word, ?_⟩
  intro s p b n hp hb hn hbad hphase
  have hwf : (Instr.init p b n).wellFormed = true := by simp [Instr.wellFormed, hp, hb, hn]
  have hgeometry : legalGeometry p b n = false := by simpa only [Bool.not_eq_true] using mt legalGeometry_iff.1 hbad
  exact ⟨decode_encode hwf, exec_init_of_bad_geometry hphase hgeometry⟩

end Sys2Proof.Machine

/-! The channel mapping table (spec/40_channel_map.md R111, R112). A bit of a table word is a bit of the byte on a data
line and 0 elsewhere; the data lines are distinct. -/

namespace Sys2Proof

/-! ### Entries of the table (R111) -/

theorem Config.tableWord_zero (c : Config) : c.tableWord 0#8 = 0#c.width :=
  c.word_ext fun i => by
    rw [Bool.eq_iff_iff, c.tableWord_bit]
    simp

theorem Config.tableWord_twoPow (c : Config) {k i : Nat} (hk : k < 8) (hi : c.dataPins[k]? = some i) :
    c.tableWord (BitVec.twoPow 8 k) = BitVec.twoPow c.width i := by
  refine c.word_ext fun j => ?_
  rw [getLsbD_pin (c.dataPin_lt (List.mem_of_getElem? hi)), Bool.eq_iff_iff, c.tableWord_bit]
  simp [getLsbD_pin hk, hi, eq_comm]

theorem Config.buildTable_length (c : Config) : c.buildTable.length = 256 := by
  simp [Config.buildTable]

theorem Config.buildTable_getElem? (c : Config) (v : Byte) : c.buildTable[v.toNat]? = some (c.tableWord v) := by
  have hv : v.toNat < 256 := v.isLt
  simp [Config.buildTable, hv]

theorem Config.dataPins_getElem?_lt (c : Config) {k i : Nat} (h : c.dataPins[k]? = some i) : k < 8 :=
  c.dataPins_length ▸ (List.getElem?_eq_some_iff.mp h).1

/-- PINSET-A puts data line `k` on pin `k`, so its table is the identity. -/
theorem Config.pinsetA_tableWord_toNat (v : Byte) : (Config.pinsetA.tableWord v).toNat = v.toNat := by
  have hpins : Config.pinsetA.dataPins = List.range 8 := rfl
  refine Nat.eq_of_testBit_eq fun i => ?_
  rw [BitVec.testBit_toNat, BitVec.testBit_toNat, Bool.eq_iff_iff, Config.tableWord_bit, hpins]
  constructor
  · rintro ⟨k, hk, hv⟩
    obtain ⟨-, rfl⟩ : k < 8 ∧ k = i := by simpa [List.getElem?_eq_some_iff] using hk
    exact hv
  · exact fun hv => ⟨i, List.getElem?_range (BitVec.lt_of_getLsbD hv), hv⟩

end Sys2Proof

namespace Sys2Proof.Machine

theorem exec_init_of_legal_geometry {p b n : Nat} {s : State} (hphase : s.phase = .uninit)
    (h : legalGeometry p b n = true) : ∃ t, exec (.init p b n) s = .next t ∧ t.tableBuilt = true := by
  simp [exec, execInit, hphase, h, State.armTimer]

/-- Settles O17, by the bits of a table word; PINSET-B's entry is evaluated. -/
theorem tablePermutesTheByte : Obligations.TablePermutesTheByte := by
  refine ⟨fun c => ⟨fun v i => ?_, c.tableWord_zero, rfl, fun k i => c.tableWord_twoPow, c.buildTable_length,
    c.buildTable_getElem?⟩, Config.pinsetA_tableWord_toNat, by decide, ?_⟩
  · rw [c.tableWord_bit]
    exact ⟨fun ⟨k, hk, hv⟩ => ⟨k, c.dataPins_getElem?_lt hk, hv, hk⟩, fun ⟨k, _, hv, hk⟩ => ⟨k, hk, hv⟩⟩
  · intro s p b n hphase hp hp6 hb hb4 hn
    exact exec_init_of_legal_geometry hphase (legalGeometry_iff.2 ⟨hp, hp6, hb, hb4, Nat.one_le_iff_ne_zero.1 hn⟩)

end Sys2Proof.Machine

namespace Sys2Proof

/-! ### What the table keeps (R112) -/

/-- A bitwise operation that leaves unset bits unset commutes with the table. -/
theorem Config.tableWord_bitwise (c : Config) {u v w : Byte} (f : Bool → Bool → Bool) (hf : f false false = false)
    (h : ∀ k, w.getLsbD k = f (u.getLsbD k) (v.getLsbD k)) (i : Nat) :
    (c.tableWord w).getLsbD i = f ((c.tableWord u).getLsbD i) ((c.tableWord v).getLsbD i) := by
  by_cases hi : i ∈ c.dataPins
  · obtain ⟨k, hk⟩ := List.mem_iff_getElem?.mp hi
    simp only [c.tableWord_pin _ hk, h]
  · simp only [c.tableWord_off _ hi, hf]

theorem Config.tableWord_or (c : Config) (u v : Byte) : c.tableWord (u ||| v) = c.tableWord u ||| c.tableWord v :=
  c.word_ext fun i => by
    rw [BitVec.getLsbD_or, c.tableWord_bitwise or rfl fun _ => BitVec.getLsbD_or]

theorem Config.tableWord_and (c : Config) (u v : Byte) : c.tableWord (u &&& v) = c.tableWord u &&& c.tableWord v :=
  c.word_ext fun i => by
    rw [BitVec.getLsbD_and, c.tableWord_bitwise and rfl fun _ => BitVec.getLsbD_and]

theorem Config.tableWord_xor (c : Config) (u v : Byte) : c.tableWord (u ^^^ v) = c.tableWord u ^^^ c.tableWord v :=
  c.word_ext fun i => by
    rw [BitVec.getLsbD_xor, c.tableWord_bitwise xor rfl fun _ => BitVec.getLsbD_xor]

theorem Config.tableWord_andNot_dataMask (c : Config) (v : Byte) : c.tableWord v &&& ~~~c.dataMask = 0#c.width := by
  refine c.word_ext fun i => ?_
  rw [getLsbD_andNot, c.dataMask_bit, c.tableWord_bit_le]
  cases decide (i ∈ c.dataPins) <;> simp

theorem Config.tableWord_injective (c : Config) : Function.Injective c.tableWord := by
  intro u v h
  refine BitVec.eq_of_getLsbD_eq fun k hk => ?_
  have hpin := List.getElem?_eq_getElem (c.dataPins_length.symm ▸ hk : k < c.dataPins.length)
  rw [← c.tableWord_pin u hpin, h, c.tableWord_pin v hpin]

/-- The set bits of a table word are on the data lines, each line once. -/
theorem Config.tableWord_countP_dataPins (c : Config) (v : Byte) :
    (List.range c.width).countP (c.tableWord v).getLsbD = c.dataPins.countP (c.tableWord v).getLsbD := by
  rw [List.countP_eq_length_filter, List.countP_eq_length_filter]
  refine List.Perm.length_eq ((List.perm_ext_iff_of_nodup (List.nodup_range.filter _) (c.dataPins_nodup.filter _)).mpr
    fun i => ?_)
  rw [List.mem_filter, List.mem_filter, List.mem_range]
  refine and_congr_left fun hbit => ⟨fun _ => ?_, c.dataPin_lt⟩
  by_contra hi
  simp [c.tableWord_off v hi] at hbit

/-- Read along the data lines, a table word is the byte. -/
theorem Config.dataPins_map_tableWord (c : Config) (v : Byte) :
    c.dataPins.map (c.tableWord v).getLsbD = (List.range 8).map v.getLsbD := by
  refine List.ext_getElem (by simp [c.dataPins_length]) fun k hk _ => ?_
  rw [List.length_map] at hk
  simp [c.tableWord_pin v (List.getElem?_eq_getElem hk)]

theorem Config.tableWord_countP (c : Config) (v : Byte) :
    (List.range c.width).countP (c.tableWord v).getLsbD = (List.range 8).countP v.getLsbD :=
  calc (List.range c.width).countP (c.tableWord v).getLsbD
      = c.dataPins.countP (c.tableWord v).getLsbD := c.tableWord_countP_dataPins v
    _ = (c.dataPins.map (c.tableWord v).getLsbD).countP id := by rw [List.countP_map, Function.id_comp]
    _ = ((List.range 8).map v.getLsbD).countP id := by rw [c.dataPins_map_tableWord]
    _ = (List.range 8).countP v.getLsbD := by rw [List.countP_map, Function.id_comp]

/-- Settles O18, each property from the bits of a table word. -/
theorem tableIsABitPermutation : Obligations.TableIsABitPermutation := fun c u v =>
  ⟨c.tableWord_or u v, c.tableWord_and u v, c.tableWord_andNot_dataMask u, (c.tableWord_xor u v).symm,
    fun h => c.tableWord_injective h, c.tableWord_countP u⟩

end Sys2Proof

/-! The three buffer primitives (spec/41_framebuffer_ops.md R121 to R124): each is `updateByte` with its own function of
the old byte. -/

namespace Sys2Proof.Machine

theorem exec_fbset (a : Nat) (m : Byte) (s : State) : exec (.fbset a m) s = updateByte a (fun v => v ||| m) s := rfl

theorem exec_fbclr (a : Nat) (m : Byte) (s : State) : exec (.fbclr a m) s = updateByte a (fun v => v &&& ~~~m) s := rfl

theorem exec_fbwr (a : Nat) (v : Byte) (s : State) : exec (.fbwr a v) s = updateByte a (fun _ => v) s := rfl

section updateByte
variable {a : Nat} {s : State} (f : Byte → Byte)

theorem updateByte_of_uninit (hphase : s.phase = .uninit) : updateByte a f s = .next (refuse .notInitialised s) :=
  if_pos hphase

theorem updateByte_of_bufferSize_le (hphase : s.phase ≠ .uninit) (ha : s.bufferSize ≤ a) :
    updateByte a f s = .next (refuse .bufferAddressOutOfRange s) := by
  rw [updateByte, if_neg hphase, if_pos ha]

/-- An accepted primitive changes the buffer alone, and of the buffer one byte. -/
theorem updateByte_changes_one_byte (hphase : s.phase ≠ .uninit) (ha : a < s.bufferSize) :
    ∃ fb, updateByte a f s = .next { s with fb := fb } ∧ fb.read a = f (s.fb.read a) ∧
      ∀ x, x ≠ a → fb.read x = s.fb.read x :=
  ⟨_, updateByte_next f hphase ha, bufferReadAfterWrite s.fb a (f (s.fb.read a))⟩

end updateByte

/-- Settles O9: the primitive's word, its two refusals, and its one byte. -/
theorem fbsetSetsBitsOfOneByte : Obligations.FbsetSetsBitsOfOneByte := by
  intro s a m
  rw [exec_fbset]
  exact ⟨fun ha => decode_encode (i := .fbset a m) (decide_eq_true ha), updateByte_of_uninit _,
    updateByte_of_bufferSize_le _, updateByte_changes_one_byte _⟩

/-- Settles O10: as FBSET; the new byte is then read bit by bit. -/
theorem fbclrClearsBitsOfOneByte : Obligations.FbclrClearsBitsOfOneByte := by
  intro s a m
  rw [exec_fbclr]
  refine ⟨fun ha => decode_encode (i := .fbclr a m) (decide_eq_true ha), updateByte_of_uninit _,
    updateByte_of_bufferSize_le _, fun hphase ha => ?_⟩
  obtain ⟨fb, hexec, hbyte, hframe⟩ := updateByte_changes_one_byte (fun v => v &&& ~~~m) hphase ha
  exact ⟨fb, hexec, fun k _ => by rw [hbyte, getLsbD_andNot], hframe⟩

/-- Settles O11: as FBSET; the new byte does not depend on the old one. -/
theorem fbwrWritesOneByte : Obligations.FbwrWritesOneByte := by
  intro s a v
  rw [exec_fbwr]
  exact ⟨fun ha => decode_encode (i := .fbwr a v) (decide_eq_true ha), updateByte_of_uninit _,
    updateByte_of_bufferSize_le _, updateByte_changes_one_byte _⟩

end Sys2Proof.Machine

/-! SETPIX off the panel (spec/41_framebuffer_ops.md R126). -/

namespace Sys2Proof

theorem Geometry.onPanel_iff (g : Geometry) (x y : Int) :
    g.onPanel x y = true ↔ 0 ≤ x ∧ x < g.width ∧ 0 ≤ y ∧ y < g.height := by
  simp [Geometry.onPanel, and_assoc]

end Sys2Proof

namespace Sys2Proof.Machine

theorem setPixel_of_not_onPanel {c : Config} (P B N : Nat) {x y : Int} (k : Colour c.geometry.chBits)
    (h : ¬ c.geometry.onPanel x y = true) : setPixel c P B N x y k = [] :=
  if_neg h

/-- Settles O16: the expansion is empty, and running no primitive answers the same state. -/
theorem setPixelOffThePanelDoesNothing : Obligations.SetPixelOffThePanelDoesNothing := by
  intro s x y k hoff
  have hempty : s.setPixelOps x y k = [] :=
    setPixel_of_not_onPanel _ s.B s.N k (mt (s.cfg.geometry.onPanel_iff x y).1 hoff)
  exact ⟨hempty, by rw [hempty, execAll]⟩

end Sys2Proof.Machine

/-! TICK (spec/42_refresh_scheduler.md R141 to R144): its three outcomes, and where a transition leaves the cursor. -/

namespace Sys2Proof.Machine

/-- `next` of R144 while the bank does not wrap. -/
theorem nextPair_of_bank_lt {P B bank plane : Nat} (hbank : bank + 1 < B) :
    nextPair P B bank plane = (bank + 1, plane) :=
  if_pos hbank

theorem nextPair_of_plane_lt {P B bank plane : Nat} (hbank : B ≤ bank + 1) (hplane : plane + 1 < P) :
    nextPair P B bank plane = (0, plane + 1) := by
  rw [nextPair, if_neg (Nat.not_lt.2 hbank), if_pos hplane]

theorem nextPair_of_plane_le {P B bank plane : Nat} (hbank : B ≤ bank + 1) (hplane : P ≤ plane + 1) :
    nextPair P B bank plane = (0, 0) := by
  rw [nextPair, if_neg (Nat.not_lt.2 hbank), if_neg (Nat.not_lt.2 hplane)]

/-- The cursor is advanced before the first read, so it does not depend on how the reads are cut into steps (R58). -/
theorem transition_cursor (s : State) : (transition s).cursor = (s.nextBank, s.nextPlane, 0) := by
  by_cases hi : s.cfg.fbInterleave = true
  · rw [transition, if_pos hi]
    rfl
  · rw [transition, if_neg hi]
    rfl

/-- A transition ends in the word that turns the outputs on (R152). -/
theorem transitionWords_getLast? (c : Config) (port : PortWord c.width) (b : Nat) (vs : List Byte) :
    (transitionWords c port b vs).getLast? =
      some ((((sampledBase c (port ||| c.oe) ||| c.tableWord (vs.getLastD 0#8)) &&& ~~~c.addrMask) ||| c.addr b)
        &&& ~~~c.lat &&& ~~~c.oe) := by
  simp [transitionWords, closingWords, List.getLast?_cons]

theorem tickEnabled_iff_running (s : State) : s.tickEnabled = true ↔ s.phase = .running ∧ s.timerEnabled = true :=
  (tickEnabled_iff s).trans and_comm

section tick
variable {s : State}

theorem exec_tick_of_not_enabled (h : ¬ (s.phase = .running ∧ s.timerEnabled = true)) :
    exec .tick s = .refused .tickNotEnabled :=
  if_neg (mt (tickEnabled_iff_running s).1 h)

theorem exec_tick_of_lt_dwell (hphase : s.phase = .running) (htimer : s.timerEnabled = true)
    (hcount : (s.subcount + 1#8).toNat < dwell s.P s.plane) :
    exec .tick s = .next { s with subcount := s.subcount + 1#8 } :=
  (if_pos ((tickEnabled_iff_running s).2 ⟨hphase, htimer⟩)).trans (if_pos hcount)

theorem exec_tick_of_dwell_le (hphase : s.phase = .running) (htimer : s.timerEnabled = true)
    (hcount : dwell s.P s.plane ≤ (s.subcount + 1#8).toNat) : exec .tick s = .next (transition s) :=
  (if_pos ((tickEnabled_iff_running s).2 ⟨hphase, htimer⟩)).trans (if_neg (Nat.not_lt.2 hcount))

theorem exec_tick_completes (h : s.phase = .running ∧ s.timerEnabled = true) : ∃ t, exec .tick s = .next t := by
  obtain hnext | ⟨-, hdisabled, -⟩ := exec_next_or_disabled .tick s
  · exact hnext
  · simp [(tickEnabled_iff_running s).2 h] at hdisabled

end tick

/-- Settles O19: below the dwell TICK takes its counting branch. -/
theorem idleTickOnlyCounts : Obligations.IdleTickOnlyCounts :=
  fun _ => exec_tick_of_lt_dwell

/-- Settles O20: at the dwell TICK is a transition, which moves the cursor to `nextPair`. -/
theorem transitionAdvancesTheCursor : Obligations.TransitionAdvancesTheCursor := by
  intro s hphase htimer hcount
  have hcursor := transition_cursor s
  simp only [State.cursor, State.nextBank, State.nextPlane, Prod.mk.injEq] at hcursor
  obtain ⟨hbank, hplane, hsub⟩ := hcursor
  refine ⟨transition s, exec_tick_of_dwell_le hphase htimer hcount, BitVec.eq_of_toNat_eq hsub, ?_⟩
  rw [hbank, hplane]
  refine ⟨fun hb => ?_, fun hb hp => ?_, fun hb hp => ?_⟩
  · simp [nextPair_of_bank_lt hb]
  · simp [nextPair_of_plane_lt hb hp]
  · simp [nextPair_of_plane_le hb hp]

/-- Settles O21: the three outcomes of TICK; a transition's port is the last of its words. -/
theorem tickFollowsTheSequence : Obligations.TickFollowsTheSequence := by
  intro s hi hN
  refine ⟨fun hdisabled => ?_, exec_tick_of_lt_dwell, fun hphase htimer hcount => ?_⟩
  · simp [exec_tick_of_not_enabled hdisabled]
  · obtain ⟨p, htransition, hdir, hemitted, hport⟩ := transition_spec s hi hN
    refine ⟨p, ?_, hdir, ?_, ?_⟩
    · rw [exec_tick_of_dwell_le hphase htimer hcount, htransition]
      rfl
    · rw [hemitted, List.reverse_append, List.reverse_reverse]
      rfl
    · rw [hemitted, List.head?_append, List.head?_reverse, transitionWords_getLast?, hport]
      rfl

/-- Settles O31: TICK is refused or completes by the timer alone, which STOP leaves disabled and START enabled. -/
theorem noTickWhileTheTimerIsDisabled : Obligations.NoTickWhileTheTimerIsDisabled := by
  refine ⟨fun s => ⟨fun hrefused henabled => ?_, exec_tick_of_not_enabled⟩, fun s t hphase hstop => ?_,
    fun s t hphase hstart => ?_⟩
  · obtain ⟨t, hnext⟩ := exec_tick_completes henabled
    simp [hrefused] at hnext
  · obtain ⟨huninit, -⟩ | ⟨-, rfl⟩ := execStop_cases hstop
    · exact absurd huninit hphase
    · exact exec_tick_of_not_enabled (by simp)
  · obtain ⟨huninit, -⟩ | ⟨hrunning, -⟩ | ⟨-, rfl⟩ := execStart_cases hstart
    · simp [hphase] at huninit
    · simp [hphase] at hrunning
    · exact exec_tick_completes ⟨rfl, rfl⟩

end Sys2Proof.Machine

/-! SETBRT (spec/43_brightness.md R171, R180): its three outcomes, and the levels of the latch. -/

namespace Sys2Proof.Machine

section setbrt
variable {s : State} (pct : Byte)

theorem exec_setbrt_of_uninit (hphase : s.phase = .uninit) :
    exec (.setbrt pct) s = .next (refuse .notInitialised s) := by
  simp only [exec, execSetbrt, hphase]

theorem exec_setbrt_of_running (hphase : s.phase = .running) :
    exec (.setbrt pct) s = .next (refuse .brightnessWhileRunning s) := by
  simp only [exec, execSetbrt, hphase]

theorem exec_setbrt_of_ready (hphase : s.phase = .ready) :
    exec (.setbrt pct) s =
      .next { s with pins := writeControl s.cfg (controlWord s.cfg.cwPrefix pct) s.B s.pins } := by
  simp only [exec, execSetbrt, hphase, State.withPins]

end setbrt

/-- Each bank ends in the primitive that takes the latch low (R181), so the port is the newest word emitted. -/
theorem writeControl_emitted_head? (c : Config) (cw : ControlWord) {B : Nat} (hB : 0 < B) (p : Pins c.width) :
    (writeControl c cw B p).emitted.head? = some (writeControl c cw B p).port := by
  obtain ⟨n, rfl⟩ := Nat.exists_eq_add_one.2 hB
  rfl

/-- Settles O35: the two refusals, and in READY the words that `writeControl` emits. -/
theorem setbrtShiftsTheControlWord : Obligations.SetbrtShiftsTheControlWord := by
  intro s pct
  refine ⟨exec_setbrt_of_uninit pct, exec_setbrt_of_running pct, fun hready hB => ?_⟩
  obtain ⟨hdir, hemitted, -, -⟩ := writeControl_spec s.cfg (controlWord s.cfg.cwPrefix pct) s.B s.pins
  refine ⟨_, exec_setbrt_of_ready pct hready, hdir, ?_, writeControl_emitted_head? _ _ hB _⟩
  rw [hemitted, List.reverse_append, List.reverse_reverse]

end Sys2Proof.Machine

/-! A bank's control write as a list of words each of which is clocked once: it has the levels of those words three times
over, and its rising clock edges are those words in order (R178, R179). -/

namespace Sys2Proof.Machine

/-- The three words that clock `w` once with the clock line `m`: low, high, low (R179). -/
def clockedOnce {W : Nat} (m w : PortWord W) : List (PortWord W) := [w, w ||| m, w]

section edges
variable {W : Nat} (x : Nat) (before : PortWord W) (ws : List (PortWord W))

/-- How often a line rises is told by its levels alone. -/
theorem risingEdges_length_eq_countP : (risingEdges x before ws).length =
    ((before.getLsbD x :: ws.map (·.getLsbD x)).zip (ws.map (·.getLsbD x))).countP (fun l => !l.1 && l.2) := by
  induction ws generalizing before with
  | nil => rfl
  | cons w ws ih =>
    rw [risingEdges]
    split <;> simp_all

theorem fallingEdges_length_eq_countP : (fallingEdges x before ws).length =
    ((before.getLsbD x :: ws.map (·.getLsbD x)).zip (ws.map (·.getLsbD x))).countP (fun l => l.1 && !l.2) := by
  induction ws generalizing before with
  | nil => rfl
  | cons w ws ih =>
    rw [fallingEdges]
    split <;> simp_all

/-- A line that stays low for `n` words has no edge among them. -/
theorem countP_zip_replicate_false {f : Bool × Bool → Bool} (hf : f (false, false) = false) (n : Nat) (r : List Bool) :
    ((false :: (List.replicate n false ++ r)).zip (List.replicate n false ++ r)).countP f =
      ((false :: r).zip r).countP f := by
  induction n with
  | zero => rfl
  | succ n ih => simpa [List.replicate_succ, hf] using ih

/-- Words with the line `x` low, each clocked once by the mask `m` of that line. -/
theorem risingEdges_clocked {m : PortWord W} (hm : m.getLsbD x = true) {last : PortWord W}
    (hlast : last.getLsbD x = false) (hlow : ∀ w ∈ ws, w.getLsbD x = false) :
    risingEdges x before (ws.flatMap (clockedOnce m) ++ [last]) = ws.map (fun w => (w, w ||| m)) := by
  induction ws generalizing before with
  | nil => simp [risingEdges, hlast]
  | cons w ws ih =>
    have hw := hlow w List.mem_cons_self
    have ih := ih w fun u hu => hlow u (List.mem_cons_of_mem w hu)
    simp [clockedOnce, risingEdges, hw, hm, ih]

end edges

/-- The words of a bank's `16*C` steps with the clock low, in order (R178 to R180). -/
def controlStepWords (c : Config) (ctl : PortWord c.width) (cw : ControlWord) : List (PortWord c.width) :=
  (List.range c.chips).flatMap (fun chip => (List.range 16).map (controlStepWord c ctl cw chip))

/-- Set-up, every step's word clocked once, and the word that takes the latch low (R177 to R181). -/
theorem controlBankWords_eq_clocked (c : Config) (port : PortWord c.width) (cw : ControlWord) (b : Nat) :
    controlBankWords c port cw b = bankSetup c port b ::
      ((controlStepWords c (bankSetup c port b) cw).flatMap (clockedOnce c.clk) ++
        [bankSetup c port b ||| controlData c cw 15]) := by
  simp only [controlBankWords, controlStepWords, List.flatMap_assoc, List.flatMap_map]
  rfl

section latch
variable (c : Config) (port : PortWord c.width) (cw : ControlWord) (b : Nat)

theorem bankSetup_clk_low : (bankSetup c port b).getLsbD c.clkPin = false := by
  obtain ⟨-, hoe, ha0, ha1, -⟩ := c.controlPins_ne
  simp [bankSetup_bit, hoe, ha0, ha1, Params.ownedPins, Params.controlPins]

theorem bankSetup_lat_low : (bankSetup c port b).getLsbD c.latPin = false := by
  obtain ⟨-, -, -, -, hoe, ha0, ha1, -⟩ := c.controlPins_ne
  simp [bankSetup_bit, hoe, ha0, ha1, Params.ownedPins, Params.controlPins]

theorem or_clk_lat (w : PortWord c.width) : (w ||| c.clk).getLsbD c.latPin = w.getLsbD c.latPin := by
  simp [c.clk_bit, c.controlPins_ne.1.symm]

theorem clockedOnce_clk_lat (w : PortWord c.width) :
    (clockedOnce c.clk w).map (·.getLsbD c.latPin) = List.replicate 3 (w.getLsbD c.latPin) := by
  simp only [clockedOnce, List.map_cons, List.map_nil, or_clk_lat, List.replicate]

theorem controlData_clk_low (j : Nat) : (controlData c cw j).getLsbD c.clkPin = false := by
  simp [controlData_bit, c.control_not_data.1]

theorem controlData_lat_low (j : Nat) : (controlData c cw j).getLsbD c.latPin = false := by
  simp [controlData_bit, c.control_not_data.2.1]

theorem controlStepWord_lat (chip j : Nat) : (controlStepWord c (bankSetup c port b) cw chip j).getLsbD c.latPin =
    decide (chip + 1 = c.chips ∧ 12 ≤ j) := by
  simp [controlStepWord, bankSetup_lat_low, controlData_lat_low, controlLatch_bit]

theorem controlChip_lat_of_lower {chip : Nat} (h : chip + 1 ≠ c.chips) :
    ((List.range 16).map (controlStepWord c (bankSetup c port b) cw chip)).map (·.getLsbD c.latPin) =
      List.replicate 16 false := by
  rw [List.map_map]
  exact List.map_eq_replicate_iff.2 fun j _ => by simp [controlStepWord_lat, h]

theorem controlChip_lat_of_last {chip : Nat} (h : chip + 1 = c.chips) :
    ((List.range 16).map (controlStepWord c (bankSetup c port b) cw chip)).map (·.getLsbD c.latPin) =
      List.replicate 12 false ++ List.replicate 4 true := by
  simp only [List.map_map, Function.comp_def, controlStepWord_lat, h, true_and]
  decide

/-- R180: of the `16*C` steps of a bank the last four have the latch high. -/
theorem controlStepWords_lat : (controlStepWords c (bankSetup c port b) cw).map (·.getLsbD c.latPin) =
    List.replicate (16 * c.chips - 4) false ++ List.replicate 4 true := by
  obtain ⟨n, hn⟩ := Nat.exists_eq_add_one.2 c.chips_pos
  have hlower : ∀ chip ∈ List.range n, chip + 1 ≠ c.chips := fun chip hchip =>
    hn ▸ (Nat.succ_lt_succ (List.mem_range.1 hchip)).ne
  calc
    _ = (List.range n).flatMap (fun _ => List.replicate 16 false) ++
        (List.replicate 12 false ++ List.replicate 4 true) := by
      rw [controlStepWords, hn, List.range_succ (n := n), List.map_flatMap, List.flatMap_append, List.flatMap_singleton,
        controlChip_lat_of_last c port cw b hn.symm,
        List.flatMap_congr fun chip h => controlChip_lat_of_lower c port cw b (hlower chip h)]
    _ = List.replicate (n * 16 + 12) false ++ List.replicate 4 true := by
      rw [List.flatMap, List.map_const', List.flatten_replicate_replicate, List.length_range, ← List.append_assoc,
        List.replicate_append_replicate]
    _ = _ := by
      rw [hn, show 16 * (n + 1) - 4 = n * 16 + 12 by omega]

theorem risingEdges_clk_controlBankWords : risingEdges c.clkPin port (controlBankWords c port cw b) =
    (controlStepWords c (bankSetup c port b) cw).map (fun w => (w, w ||| c.clk)) := by
  have hlow : ∀ w ∈ controlStepWords c (bankSetup c port b) cw, w.getLsbD c.clkPin = false := by
    simp only [controlStepWords, List.mem_flatMap, List.mem_map]
    rintro w ⟨chip, -, j, -, rfl⟩
    exact controlStepWord_clk_low c port cw b chip j
  have hlast : (bankSetup c port b ||| controlData c cw 15).getLsbD c.clkPin = false := by
    simp [bankSetup_clk_low, controlData_clk_low]
  rw [controlBankWords_eq_clocked, risingEdges, bankSetup_clk_low, Bool.and_false]
  exact risingEdges_clocked _ _ _ (by simp [c.clk_bit]) hlast hlow

theorem controlBankWords_lat : (controlBankWords c port cw b).map (·.getLsbD c.latPin) =
    List.replicate (48 * c.chips - 11) false ++ List.replicate 12 true ++ [false] := by
  have hsteps : ((controlStepWords c (bankSetup c port b) cw).flatMap (clockedOnce c.clk)).map
      (·.getLsbD c.latPin) = ((controlStepWords c (bankSetup c port b) cw).map (·.getLsbD c.latPin)).flatMap
        (List.replicate 3) := by
    rw [List.map_flatMap, List.flatMap_map]
    exact List.flatMap_congr fun w _ => clockedOnce_clk_lat c w
  have hpos := c.chips_pos
  have hlast : (bankSetup c port b ||| controlData c cw 15).getLsbD c.latPin = false := by
    simp [bankSetup_lat_low, controlData_lat_low]
  rw [controlBankWords_eq_clocked, List.map_cons, List.map_append, hsteps, controlStepWords_lat,
    List.flatMap_append, List.flatMap_replicate, List.flatten_replicate_replicate, bankSetup_lat_low,
    show 48 * c.chips - 11 = (16 * c.chips - 4) * 3 + 1 by omega, List.replicate_succ, List.map_singleton, hlast]
  rfl

end latch

/-- Settles O37: the levels of the latch over the `16*C` steps, read three times over and once per rising clock edge. -/
theorem latchIsHighOnTheLastFourBits : Obligations.LatchIsHighOnTheLastFourBits := by
  intro c port cw b
  have hlow : (0#c.width).getLsbD c.latPin = false := BitVec.getLsbD_zero
  refine ⟨controlBankWords_lat c port cw b, ?_, ?_, ?_⟩
  · rw [risingEdges_clk_controlBankWords, List.map_map, ← controlStepWords_lat c port cw b]
    exact List.map_congr_left fun w _ => or_clk_lat c w
  · rw [risingEdges_length_eq_countP, controlBankWords_lat, hlow, List.append_assoc, countP_zip_replicate_false rfl]
    rfl
  · rw [fallingEdges_length_eq_countP, controlBankWords_lat, hlow, List.append_assoc, countP_zip_replicate_false rfl]
    rfl

end Sys2Proof.Machine

/-! The lifecycle (spec/44_lifecycle.md R200 to R204): the outcomes of INIT and START, the idle levels INIT leaves on the
port, and the operations that move the phase. -/

namespace Sys2Proof.Machine

section start
variable {s : State}

theorem exec_start_of_uninit (hphase : s.phase = .uninit) : exec .start s = .next (refuse .notInitialised s) := by
  simp only [exec, execStart, hphase]

theorem exec_start_of_running (hphase : s.phase = .running) :
    exec .start s = .next (refuse .startWhileRunning s) := by
  simp only [exec, execStart, hphase]

theorem exec_start_of_ready (hphase : s.phase = .ready) :
    exec .start s = .next (s.withCursor 0 0 0#8).enableTimer := by
  simp only [exec, execStart, hphase]

end start

/-- Settles O40: the three phases; in READY the cursor and the timer's flags are all that is written. -/
theorem startResetsTheCursor : Obligations.StartResetsTheCursor :=
  fun _ => ⟨exec_start_of_uninit, exec_start_of_running, exec_start_of_ready⟩

theorem exec_init_of_initialised (p b n : Nat) {s : State} (hphase : s.phase ≠ .uninit) :
    exec (.init p b n) s = .next (refuse .alreadyInitialised s) :=
  if_pos hphase

theorem exec_init_configures {p b n : Nat} {s : State} (hphase : s.phase = .uninit)
    (h : legalGeometry p b n = true) :
    exec (.init p b n) s =
      .next { s with P := p, B := b, N := n, tableBuilt := true, pins := idlePins s.cfg s.pins, timerArmed := true,
                     timerEnabled := false, timerInterval := s.cfg.baseInterval / 2 ^ p, phase := .ready } := by
  simp [exec, execInit, hphase, h, State.armTimer, Nat.shiftRight_eq_div_pow]

section idlePins
variable (c : Config) (p : Pins c.width)

theorem idlePins_emitted : (idlePins c p).emitted = (idlePins c p).port :: p.emitted := rfl

theorem idlePins_dir_bit (i : Nat) :
    (idlePins c p).dir.getLsbD i = (p.dir.getLsbD i || decide (i ∈ c.ownedPins)) := by
  simp [idlePins, c.ownedMask_bit]

/-- R203: of the owned lines output-enable alone is high. -/
theorem idlePins_port_bit (i : Nat) :
    (idlePins c p).port.getLsbD i = if i ∈ c.ownedPins then decide (i = c.oePin) else p.port.getLsbD i := by
  by_cases hi : i ∈ c.ownedPins
  · simp [-BitVec.getLsbD_and, idlePins, getLsbD_andNot, c.ownedMask_bit, c.oe_bit, hi]
  · rw [if_neg hi]
    exact (idlePins_keepsUnowned c p).port i hi

end idlePins

/-- Settles O39: the two refusals, and the pins of `idlePins` bit by bit. -/
theorem initConfiguresTheBlock : Obligations.InitConfiguresTheBlock := by
  refine fun s p b n => ⟨exec_init_of_initialised p b n, fun hphase hbad => ?_, fun hphase hp hp6 hb hb4 hn => ?_⟩
  · have hgeometry : ¬ legalGeometry p b n = true := by
      rw [legalGeometry_iff]
      omega
    exact exec_init_of_bad_geometry hphase (Bool.eq_false_iff.2 hgeometry)
  · have hgeometry : legalGeometry p b n = true := legalGeometry_iff.2 ⟨hp, hp6, hb, hb4, Nat.one_le_iff_ne_zero.1 hn⟩
    exact ⟨idlePins s.cfg s.pins, exec_init_configures hphase hgeometry, idlePins_emitted _ _, idlePins_dir_bit _ _,
      idlePins_port_bit _ _⟩

/-! ### The phase (R200) -/

theorem transition_phase (s : State) : (transition s).phase = s.phase := by
  unfold transition
  split <;> rfl

theorem readStep_phase (s : State) (r : Streaming s.cfg.width) : (readStep s r).phase = s.phase := by
  unfold readStep
  split <;> rfl

theorem exec_primitive_phase {i : Instr} {s t : State} (hi : isBufferPrimitive i = true) (h : exec i s = .next t) :
    t.phase = s.phase := by
  obtain ⟨r, rfl⟩ | ⟨m, rfl⟩ := exec_primitive_cases hi h <;> simp

/-- A refused operation keeps the phase, and so does a STOP in READY. -/
theorem exec_phase {i : Instr} {s t : State} (h : exec i s = .next t) :
    t.phase = s.phase ∨
    (∃ p b n, i = .init p b n ∧ s.phase = .uninit ∧ t.phase = .ready) ∨
    (i = .start ∧ s.phase = .ready ∧ t.phase = .running) ∨
    (i = .stop ∧ s.phase = .running ∧ t.phase = .ready) := by
  cases i with
  | init p b n =>
    obtain ⟨-, rfl⟩ | ⟨-, -, rfl⟩ | ⟨hphase, -, rfl⟩ := execInit_cases h
    · exact .inl rfl
    · exact .inl rfl
    · exact .inr (.inl ⟨p, b, n, rfl, hphase, rfl⟩)
  | setbrt pct => obtain ⟨-, rfl⟩ | ⟨-, rfl⟩ | ⟨-, rfl⟩ := execSetbrt_cases h <;> exact .inl rfl
  | start =>
    obtain ⟨-, rfl⟩ | ⟨-, rfl⟩ | ⟨hphase, rfl⟩ := execStart_cases h
    · exact .inl rfl
    · exact .inl rfl
    · exact .inr (.inr (.inl ⟨rfl, hphase, rfl⟩))
  | stop =>
    obtain ⟨-, rfl⟩ | ⟨hinit, rfl⟩ := execStop_cases h
    · exact .inl rfl
    · cases hphase : s.phase with
      | uninit => exact absurd hphase hinit
      | ready => exact .inl rfl
      | running => exact .inr (.inr (.inr ⟨rfl, rfl, rfl⟩))
  | tick =>
    obtain ⟨-, ⟨-, rfl⟩ | ⟨-, rfl⟩⟩ := execTick_cases h
    · exact .inl rfl
    · exact .inl (transition_phase s)
  | fbset a m => exact .inl (exec_primitive_phase rfl h)
  | fbclr a m => exact .inl (exec_primitive_phase rfl h)
  | fbwr a v => exact .inl (exec_primitive_phase rfl h)

/-- Settles O50: of what a step can do, only an operation can move the phase, and each that does makes its own move. -/
theorem onlyLifecycleCommandsMoveThePhase : Obligations.OnlyLifecycleCommandsMoveThePhase := by
  intro s t h hmoved
  obtain ⟨-, rfl⟩ | ⟨c, rest, hpending, ⟨i, hi, -, hexec⟩ | ⟨w, e, -, -, -, rfl⟩ | ⟨r, -, -, rfl⟩⟩ := step_cases h
  · exact absurd rfl hmoved
  · exact ⟨c, rest, i, hpending, hi, (exec_phase hexec).resolve_left hmoved⟩
  · exact absurd rfl hmoved
  · exact absurd (readStep_phase (s.popped rest) r) hmoved

end Sys2Proof.Machine

/-! The refusal table (spec/60_exceptions.md R226): an operation that answers a next state is refused for the reason the
table names, or the table names none and the mark stays. -/

namespace Sys2Proof.Machine

/-! ### The table, row by row -/

section table
variable {s : State}

theorem refusalOf_init_of_initialised (p b n : Nat) (hphase : s.phase ≠ .uninit) :
    refusalOf s (.init p b n) = some .alreadyInitialised :=
  if_pos hphase

/-- In UNINIT the table's ranges are the check INIT makes (R202). -/
theorem refusalOf_init_of_uninit (p b n : Nat) (hphase : s.phase = .uninit) :
    refusalOf s (.init p b n) = if legalGeometry p b n = true then none else some .badConfiguration := by
  simp only [refusalOf, hphase, ne_eq, not_true_eq_false, if_false, legalGeometry_iff]

/-- The three buffer primitives share their row (R121). -/
theorem refusalOf_primitive {i : Instr} {a : Nat} {f : Byte → Byte} (h : byteUpdate i = some (a, f)) :
    refusalOf s i = refusalOf.bufferRefusal s a := by
  cases i with
  | init _ _ _ | setbrt _ | start | stop | tick => cases h
  | fbset _ _ | fbclr _ _ | fbwr _ _ => cases h; rfl

/-- The table does not look at the run to come. -/
@[simp] theorem refusalOf_popped (rest : List Command) (i : Instr) :
    refusalOf (s.popped rest) i = refusalOf s i := by
  cases i <;> rfl

end table

/-! ### What an operation does to the mark -/

/-- `t` answers an operation on `s` for which the table gives `reason`: the refusal with that reason, or, where it gives
none, any state with the mark of `s`. -/
def AnswersRefusal (reason : Option RefusalReason) (s t : State) : Prop :=
  match reason with
  | some r => t = refuse r s
  | none => t.refused = s.refused

section answers
variable {reason : Option RefusalReason} {s t : State}

theorem AnswersRefusal.refused {r : RefusalReason} (h : reason = some r) (ht : t = refuse r s) :
    AnswersRefusal reason s t := by
  subst h
  exact ht

theorem AnswersRefusal.accepted (h : reason = none) (ht : t.refused = s.refused) : AnswersRefusal reason s t := by
  subst h
  exact ht

/-- From an unmarked state the mark tells whether there was a reason. -/
theorem AnswersRefusal.unmarked_iff (h : AnswersRefusal reason s t) (hs : s.refused = none) :
    t.refused = none ↔ reason = none := by
  cases reason with
  | none =>
    have ht : t.refused = s.refused := h
    simp [ht, hs]
  | some r =>
    have ht : t = refuse r s := h
    simp [ht, hs]

end answers

theorem transition_refused (s : State) : (transition s).refused = s.refused := by
  unfold transition
  split <;> rfl

theorem exec_primitive_answersRefusal {i : Instr} {s t : State} (hi : isBufferPrimitive i = true)
    (h : exec i s = .next t) : AnswersRefusal (refusalOf s i) s t := by
  obtain ⟨a, f, hupdate, hexec⟩ := exec_primitive hi
  rw [hexec] at h
  rw [refusalOf_primitive hupdate]
  obtain ⟨hphase, rfl⟩ | ⟨hphase, ha, rfl⟩ | ⟨hphase, ha, rfl⟩ := updateByte_cases h
  · exact .refused (if_pos hphase) rfl
  · exact .refused ((if_neg hphase).trans (if_pos ha)) rfl
  · exact .accepted ((if_neg hphase).trans (if_neg (Nat.not_le.2 ha))) rfl

/-- Each case of an operation's meaning is a row of the table; the tests come in the same order (R227). -/
theorem exec_answersRefusal {i : Instr} {s t : State} (h : exec i s = .next t) :
    AnswersRefusal (refusalOf s i) s t := by
  cases i with
  | init p b n =>
    obtain ⟨hphase, rfl⟩ | ⟨hphase, hbad, rfl⟩ | ⟨hphase, hlegal, rfl⟩ := execInit_cases h
    · exact .refused (refusalOf_init_of_initialised p b n hphase) rfl
    · exact .refused (by simp [refusalOf_init_of_uninit p b n hphase, hbad]) rfl
    · exact .accepted (by simp [refusalOf_init_of_uninit p b n hphase, hlegal]) rfl
  | setbrt pct =>
    obtain ⟨hphase, rfl⟩ | ⟨hphase, rfl⟩ | ⟨hphase, rfl⟩ := execSetbrt_cases h
    · exact .refused (by simp [refusalOf, hphase]) rfl
    · exact .refused (by simp [refusalOf, hphase]) rfl
    · exact .accepted (by simp [refusalOf, hphase]) rfl
  | start =>
    obtain ⟨hphase, rfl⟩ | ⟨hphase, rfl⟩ | ⟨hphase, rfl⟩ := execStart_cases h
    · exact .refused (by simp [refusalOf, hphase]) rfl
    · exact .refused (by simp [refusalOf, hphase]) rfl
    · exact .accepted (by simp [refusalOf, hphase]) rfl
  | stop =>
    obtain ⟨hphase, rfl⟩ | ⟨hphase, rfl⟩ := execStop_cases h
    · exact .refused (if_pos hphase) rfl
    · exact .accepted (if_neg hphase) rfl
  | tick =>
    obtain ⟨-, ⟨-, rfl⟩ | ⟨-, rfl⟩⟩ := execTick_cases h
    · exact .accepted rfl rfl
    · exact .accepted rfl (transition_refused s)
  | fbset a m => exact exec_primitive_answersRefusal rfl h
  | fbclr a m => exact exec_primitive_answersRefusal rfl h
  | fbwr a v => exact exec_primitive_answersRefusal rfl h

theorem exec_completes {i : Instr} {s : State} (h : i = .tick → s.phase = .running ∧ s.timerEnabled = true) :
    ∃ t, exec i s = .next t := by
  obtain hnext | ⟨rfl, -, -⟩ := exec_next_or_disabled i s
  · exact hnext
  · exact exec_tick_completes (h rfl)

/-! ### Safe runs of one step (R238) -/

theorem safeRun_one_iff {s t : State} (h : step s = .next t) : SafeRun 1 s ↔ t.refused = none := by
  simp [SafeRun, Host.Core.run, h]

theorem step_op_of_idle {s : State} {i : Instr} {rest : List Command} (hnext : s.pending = .op i :: rest)
    (hidle : s.streaming = none) : step s = exec i (s.popped rest) :=
  (step_cons hnext).trans (deliverInstr_idle hidle)

/-- Settles O42: an operation completes, and its answer is the one the table's reason asks for. -/
theorem refusalsFollowTheTable : Obligations.RefusalsFollowTheTable := by
  intro s i htick
  obtain ⟨t, hexec⟩ := exec_completes htick
  have hanswer := exec_answersRefusal hexec
  refine ⟨fun r hr => ?_, fun hnone => ?_, fun rest hnext hidle hunmarked => ?_⟩
  · rw [hr] at hanswer
    exact hexec.trans (congrArg _ hanswer)
  · rw [hnone] at hanswer
    exact ⟨t, hexec, hanswer⟩
  · obtain ⟨u, hstep⟩ := exec_completes (s := s.popped rest) htick
    rw [safeRun_one_iff ((step_op_of_idle hnext hidle).trans hstep), ← refusalOf_popped rest i]
    exact (exec_answersRefusal hstep).unmarked_iff hunmarked

end Sys2Proof.Machine

/-! Single lines of a port word (spec/00_scope.md R15): a mask of one line or of the two address lines asks for the levels
of those lines, and a control line has a level of its own in each word a sequence writes. -/

namespace Sys2Proof

/-- `Config.controlPins_ne` read from the other side. -/
theorem Config.controlPins_ne_symm (c : Config) :
    c.latPin ≠ c.clkPin ∧ c.oePin ≠ c.clkPin ∧ c.a0Pin ≠ c.clkPin ∧ c.a1Pin ≠ c.clkPin ∧ c.oePin ≠ c.latPin ∧
    c.a0Pin ≠ c.latPin ∧ c.a1Pin ≠ c.latPin ∧ c.a0Pin ≠ c.oePin ∧ c.a1Pin ≠ c.oePin ∧ c.a1Pin ≠ c.a0Pin := by
  obtain ⟨h1, h2, h3, h4, h5, h6, h7, h8, h9, h10⟩ := c.controlPins_ne
  exact ⟨h1.symm, h2.symm, h3.symm, h4.symm, h5.symm, h6.symm, h7.symm, h8.symm, h9.symm, h10.symm⟩

theorem and_pin_eq_zero_iff {W pin : Nat} (h : pin < W) (x : BitVec W) :
    x &&& BitVec.twoPow W pin = 0#W ↔ x.getLsbD pin = false := by
  rw [BitVec.and_twoPow]
  cases hx : x.getLsbD pin
  · simp
  · simpa using fun h0 => by simpa [h] using congrArg (·.getLsbD pin) h0

theorem and_pin_eq_pin_iff {W pin : Nat} (h : pin < W) (x : BitVec W) :
    x &&& BitVec.twoPow W pin = BitVec.twoPow W pin ↔ x.getLsbD pin = true := by
  rw [BitVec.and_twoPow]
  cases hx : x.getLsbD pin
  · simpa using fun h0 => by simpa [h] using congrArg (·.getLsbD pin) h0
  · simp

section lines
variable (c : Config) (x y : PortWord c.width)

theorem Config.and_clk_eq_zero_iff : x &&& c.clk = 0#_ ↔ x.getLsbD c.clkPin = false :=
  and_pin_eq_zero_iff (c.controlPin_lt (by simp [Params.controlPins])) x

theorem Config.and_lat_eq_zero_iff : x &&& c.lat = 0#_ ↔ x.getLsbD c.latPin = false :=
  and_pin_eq_zero_iff (c.controlPin_lt (by simp [Params.controlPins])) x

theorem Config.and_oe_eq_zero_iff : x &&& c.oe = 0#_ ↔ x.getLsbD c.oePin = false :=
  and_pin_eq_zero_iff (c.controlPin_lt (by simp [Params.controlPins])) x

theorem Config.and_oe_eq_oe_iff : x &&& c.oe = c.oe ↔ x.getLsbD c.oePin = true :=
  and_pin_eq_pin_iff (c.controlPin_lt (by simp [Params.controlPins])) x

end lines

end Sys2Proof

namespace Sys2Proof.Machine

/-! ### The invariant (spec/10_state.md R39) -/

/-- `q` follows `p` and is as the pins of an initialised block are between two steps: `DIR` unchanged, the port the last
word emitted, clock and latch low (R25, R39). -/
structure Pins.SettlesTo (c : Config) (p q : Pins c.width) : Prop where
  dir : q.dir = p.dir
  lastWord : q.emitted.head? = some q.port
  clkLow : q.port.getLsbD c.clkPin = false
  latLow : q.port.getLsbD c.latPin = false

/-- The end of a transition takes clock and latch low whatever they were. -/
theorem finishTransition_settles (c : Config) (b : Nat) (p : Pins c.width) :
    p.SettlesTo c (finishTransition c b p) := by
  obtain ⟨hdir, -, hport⟩ := finishTransition_spec c b p
  refine ⟨hdir, rfl, ?_, ?_⟩ <;> rw [hport] <;>
    simp [-BitVec.getLsbD_and, getLsbD_andNot, c.clk_bit, c.lat_bit, c.addr_bit, c.controlPins_ne]

theorem writeControl_settles (c : Config) (cw : ControlWord) {B : Nat} (hB : 0 < B) (p : Pins c.width) :
    p.SettlesTo c (writeControl c cw B p) := by
  obtain ⟨hdir, -, -, hport⟩ := writeControl_spec c cw B p
  refine ⟨hdir, writeControl_emitted_head? c cw hB p, ?_, ?_⟩ <;> rw [hport hB]
  · simp [bankSetup_clk_low, controlData_clk_low]
  · simp [bankSetup_lat_low, controlData_lat_low]

/-- INIT's idle word has of the owned lines output-enable alone high. -/
theorem idlePins_port_low (c : Config) (p : Pins c.width) :
    (idlePins c p).port.getLsbD c.clkPin = false ∧ (idlePins c p).port.getLsbD c.latPin = false := by
  simp [idlePins_port_bit, Params.ownedPins, Params.controlPins, c.controlPins_ne]

theorem legalGeometry_pos {p b n : Nat} (h : legalGeometry p b n = true) : 0 < p ∧ 0 < b ∧ 0 < n := by
  have := legalGeometry_iff.1 h
  omega

theorem dwell_pos (P d : Nat) : 0 < dwell P d := Nat.two_pow_pos _

/-- The cursor's successor is in range whenever there is a plane and a bank (R144). -/
theorem nextPair_lt {P B : Nat} (hP : 0 < P) (hB : 0 < B) {bank plane : Nat} (hplane : plane < P) :
    (nextPair P B bank plane).1 < B ∧ (nextPair P B bank plane).2 < P := by
  unfold nextPair
  split
  · exact ⟨‹_›, hplane⟩
  · split
    · exact ⟨hB, ‹_›⟩
    · exact ⟨hB, hP⟩

section inv
variable {s : State}

/-- No clause of the invariant reads the mark or the run to come, and of the buffer it asks the canonical form only. -/
theorem State.Inv.withRun (hinv : s.Inv) {fb : Memory} (hfb : fb.wf = true) (mark : Option RefusalReason)
    (rest : List Command) : State.Inv { s with fb := fb, refused := mark, pending := rest } :=
  ⟨hfb, hinv.enabledIffRunning, hinv.armedIffInitialised, hinv.untouched, hinv.configured, hinv.portIsLastWord,
    hinv.cursorInRange, hinv.linesIdle, hinv.readsInSlice⟩

theorem State.Inv.popped (hinv : s.Inv) (rest : List Command) : (s.popped rest).Inv :=
  hinv.withRun hinv.bufferCanonical s.refused rest

theorem State.Inv.refuse (hinv : s.Inv) (r : RefusalReason) : (refuse r s).Inv :=
  hinv.withRun hinv.bufferCanonical (markRefused s.refused r) s.pending

theorem State.Inv.withFb (hinv : s.Inv) {fb : Memory} (hfb : fb.wf = true) : (s.withFb fb).Inv :=
  hinv.withRun hfb s.refused s.pending

theorem State.Inv.pins_settle (hinv : s.Inv) (hphase : s.phase ≠ .uninit) (hidle : s.streaming = none) :
    s.pins.SettlesTo s.cfg s.pins := by
  obtain ⟨hclk, hlat⟩ := hinv.linesIdle hphase hidle
  exact ⟨rfl, hinv.portIsLastWord hphase, (s.cfg.and_clk_eq_zero_iff _).1 hclk, (s.cfg.and_lat_eq_zero_iff _).1 hlat⟩

/-- A step of an initialised block that ends with no transition going on: settled pins, and the cursor in range. -/
theorem State.Inv.settled (hinv : s.Inv) (hphase : s.phase ≠ .uninit) {q : Pins s.cfg.width}
    (hq : s.pins.SettlesTo s.cfg q) {b p : Nat} {n : BitVec 8}
    (hcursor : s.phase = .running → b < s.B ∧ p < s.P ∧ n.toNat < dwell s.P p)
    {st : Option (Streaming s.cfg.width)} (hst : st = none) :
    State.Inv { s with pins := q, bank := b, plane := p, subcount := n, streaming := st } where
  bufferCanonical := hinv.bufferCanonical
  enabledIffRunning := hinv.enabledIffRunning
  armedIffInitialised := hinv.armedIffInitialised
  untouched h := absurd h hphase
  configured h := by
    obtain ⟨hlegal, hbuilt, hinterval, hdir⟩ := hinv.configured h
    exact ⟨hlegal, hbuilt, hinterval, hq.dir ▸ hdir⟩
  portIsLastWord _ := hq.lastWord
  cursorInRange := hcursor
  linesIdle _ _ := ⟨(s.cfg.and_clk_eq_zero_iff _).2 hq.clkLow, (s.cfg.and_lat_eq_zero_iff _).2 hq.latLow⟩
  readsInSlice r hr := by simp [hst] at hr

/-! ### Each operation keeps it -/

/-- Before INIT the block is untouched, so no transition is going on. -/
theorem exec_init_inv (hinv : s.Inv) {p b n : Nat} {t : State} (h : execInit p b n s = .next t) : t.Inv := by
  obtain ⟨-, rfl⟩ | ⟨-, -, rfl⟩ | ⟨hphase, hlegal, rfl⟩ := execInit_cases h
  · exact hinv.refuse _
  · exact hinv.refuse _
  · obtain ⟨-, -, hidle⟩ := hinv.untouched hphase
    obtain ⟨hclk, hlat⟩ := idlePins_port_low s.cfg s.pins
    have howned : (idlePins s.cfg s.pins).dir &&& s.cfg.ownedMask = s.cfg.ownedMask := s.cfg.word_ext fun i => by
      by_cases hi : i ∈ s.cfg.ownedPins <;> simp [idlePins_dir_bit, s.cfg.ownedMask_bit, hi]
    exact {
      bufferCanonical := hinv.bufferCanonical
      enabledIffRunning := by simp
      armedIffInitialised := by simp
      untouched := by simp
      configured := fun _ => ⟨hlegal, rfl, rfl, howned⟩
      portIsLastWord := fun _ => rfl
      cursorInRange := by simp
      linesIdle := fun _ _ => ⟨(s.cfg.and_clk_eq_zero_iff _).2 hclk, (s.cfg.and_lat_eq_zero_iff _).2 hlat⟩
      readsInSlice := by simp [hidle] }

theorem exec_setbrt_inv (hinv : s.Inv) (hidle : s.streaming = none) {pct : Byte} {t : State}
    (h : execSetbrt pct s = .next t) : t.Inv := by
  obtain ⟨-, rfl⟩ | ⟨-, rfl⟩ | ⟨hphase, rfl⟩ := execSetbrt_cases h
  · exact hinv.refuse _
  · exact hinv.refuse _
  · have hinit : s.phase ≠ .uninit := by simp [hphase]
    obtain ⟨hlegal, -⟩ := hinv.configured hinit
    obtain ⟨-, hB, -⟩ := legalGeometry_pos hlegal
    exact hinv.settled hinit (writeControl_settles s.cfg _ hB s.pins) hinv.cursorInRange hidle


theorem exec_start_inv (hinv : s.Inv) (hidle : s.streaming = none) {t : State} (h : execStart s = .next t) : t.Inv := by
  obtain ⟨-, rfl⟩ | ⟨-, rfl⟩ | ⟨hphase, rfl⟩ := execStart_cases h
  · exact hinv.refuse _
  · exact hinv.refuse _
  · have hinit : s.phase ≠ .uninit := by simp [hphase]
    have hconfigured := hinv.configured hinit
    obtain ⟨hP, hB, -⟩ := legalGeometry_pos hconfigured.1
    exact {
      bufferCanonical := hinv.bufferCanonical
      enabledIffRunning := by simp
      armedIffInitialised := by simp [hinv.armedIffInitialised, hinit]
      untouched := by simp
      configured := fun _ => hconfigured
      portIsLastWord := fun _ => hinv.portIsLastWord hinit
      cursorInRange := fun _ => ⟨hB, hP, dwell_pos s.P 0⟩
      linesIdle := fun _ _ => hinv.linesIdle hinit hidle
      readsInSlice := by simp [hidle] }

theorem exec_stop_inv (hinv : s.Inv) (hidle : s.streaming = none) {t : State} (h : execStop s = .next t) : t.Inv := by
  obtain ⟨-, rfl⟩ | ⟨hinit, rfl⟩ := execStop_cases h
  · exact hinv.refuse _
  · exact {
      bufferCanonical := hinv.bufferCanonical
      enabledIffRunning := by simp
      armedIffInitialised := by simp [hinv.armedIffInitialised, hinit]
      untouched := by simp
      configured := fun _ => hinv.configured hinit
      portIsLastWord := fun _ => hinv.portIsLastWord hinit
      cursorInRange := by simp
      linesIdle := fun _ _ => hinv.linesIdle hinit hidle
      readsInSlice := by simp [hidle] }

/-- The sampled word has the clock and the data lines low and every other line as in the port (R147). -/
theorem sampledBase_and_clk_data (c : Config) (port : PortWord c.width) :
    sampledBase c port &&& (c.clk ||| c.dataMask) = 0#_ :=
  c.word_ext fun i => by
    simp only [BitVec.getLsbD_and, sampledBase_bit, BitVec.getLsbD_or, c.clk_bit, c.dataMask_bit, BitVec.getLsbD_zero]
    by_cases hdata : i ∈ c.dataPins <;> by_cases hclk : i = c.clkPin <;> simp [hdata, hclk]

theorem sampledBase_lat (c : Config) (port : PortWord c.width) :
    (sampledBase c port).getLsbD c.latPin = port.getLsbD c.latPin := by
  simp [sampledBase_bit, c.control_not_data, c.controlPins_ne_symm]

theorem sampledBase_oe (c : Config) (port : PortWord c.width) :
    (sampledBase c port).getLsbD c.oePin = port.getLsbD c.oePin := by
  simp [sampledBase_bit, c.control_not_data, c.controlPins_ne_symm]

theorem sampledBase_and_not_owned (c : Config) (port : PortWord c.width) :
    sampledBase c port &&& ~~~c.ownedMask = port &&& ~~~c.ownedMask :=
  c.word_ext fun i => by
    rw [getLsbD_andNot, getLsbD_andNot, c.ownedMask_bit]
    by_cases hi : i ∈ c.ownedPins
    · simp [hi]
    · rw [sampledBase_unowned c port hi]

/-- The TICK of an interleaved transition leaves all its reads to come, with the outputs off (R58, R146). -/
theorem startReads_inv (hinv : s.Inv) (hphase : s.phase = .running) (hidle : s.streaming = none)
    (hinterleave : s.cfg.fbInterleave = true) : (startReads (beginTransition s)).Inv := by
  have hinit : s.phase ≠ .uninit := by simp [hphase]
  have hconfigured := hinv.configured hinit
  obtain ⟨hP, hB, hN⟩ := legalGeometry_pos hconfigured.1
  obtain ⟨-, hplane, -⟩ := hinv.cursorInRange hphase
  have hlat : (s.pins.port ||| s.cfg.oe).getLsbD s.cfg.latPin = false := by
    simp [s.cfg.oe_bit, (hinv.pins_settle hinit hidle).latLow, s.cfg.controlPins_ne]
  have hoe : (s.pins.port ||| s.cfg.oe).getLsbD s.cfg.oePin = true := by simp [s.cfg.oe_bit]
  obtain ⟨hbank, hplane⟩ := nextPair_lt (bank := s.bank) hP hB hplane
  exact {
    bufferCanonical := hinv.bufferCanonical
    enabledIffRunning := hinv.enabledIffRunning
    armedIffInitialised := hinv.armedIffInitialised
    untouched := fun h => absurd h hinit
    configured := fun _ => hconfigured
    portIsLastWord := fun _ => rfl
    cursorInRange := fun _ => ⟨hbank, hplane, dwell_pos s.P _⟩
    linesIdle := fun _ h => nomatch h
    readsInSlice := by
      rintro _ ⟨⟩
      exact ⟨hphase, hinterleave, rfl, hN, (s.cfg.and_lat_eq_zero_iff _).2 hlat, (s.cfg.and_oe_eq_oe_iff _).2 hoe,
        (s.cfg.and_lat_eq_zero_iff _).2 ((sampledBase_lat s.cfg _).trans hlat),
        (s.cfg.and_oe_eq_oe_iff _).2 ((sampledBase_oe s.cfg _).trans hoe), sampledBase_and_clk_data s.cfg _,
        sampledBase_and_not_owned s.cfg _⟩ }

theorem transition_inv (hinv : s.Inv) (hphase : s.phase = .running) (hidle : s.streaming = none) :
    (transition s).Inv := by
  have hinit : s.phase ≠ .uninit := by simp [hphase]
  obtain ⟨hP, hB, -⟩ := legalGeometry_pos (hinv.configured hinit).1
  obtain ⟨-, hplane, -⟩ := hinv.cursorInRange hphase
  obtain ⟨hbank, hplane⟩ := nextPair_lt (bank := s.bank) hP hB hplane
  by_cases hinterleave : s.cfg.fbInterleave = true
  · rw [transition, if_pos hinterleave]
    exact startReads_inv hinv hphase hidle hinterleave
  · rw [transition, if_neg hinterleave]
    have hfinish := finishTransition_settles s.cfg s.nextBank (streamSlice s.cfg
      (sampledBase s.cfg (s.pins.portSet s.cfg.oe).port) s.fb (sbase s.P s.B s.N s.nextPlane s.nextBank) s.N
      (s.pins.portSet s.cfg.oe))
    have hdir := (streamSlice_spec s.cfg (sampledBase s.cfg (s.pins.portSet s.cfg.oe).port) s.fb
      (sbase s.P s.B s.N s.nextPlane s.nextBank) s.N (s.pins.portSet s.cfg.oe)).1
    exact hinv.settled hinit { hfinish with dir := hfinish.dir.trans hdir } (n := 0#8)
      (fun _ => ⟨hbank, hplane, dwell_pos s.P _⟩) hidle

theorem exec_tick_inv (hinv : s.Inv) (hidle : s.streaming = none) {t : State} (h : execTick s = .next t) : t.Inv := by
  obtain ⟨henabled, ⟨hcount, rfl⟩ | ⟨-, rfl⟩⟩ := execTick_cases h
  all_goals obtain ⟨-, hphase⟩ := (tickEnabled_iff s).1 henabled
  · have hinit : s.phase ≠ .uninit := by simp [hphase]
    obtain ⟨hbank, hplane, -⟩ := hinv.cursorInRange hphase
    exact hinv.settled hinit (hinv.pins_settle hinit hidle) (fun _ => ⟨hbank, hplane, hcount⟩) hidle
  · exact transition_inv hinv hphase hidle

theorem exec_primitive_inv (hinv : s.Inv) {i : Instr} (hi : isBufferPrimitive i = true) {t : State}
    (h : exec i s = .next t) : t.Inv := by
  obtain ⟨a, f, -, hexec⟩ := exec_primitive hi
  rw [hexec] at h
  obtain ⟨-, rfl⟩ | ⟨-, -, rfl⟩ | ⟨-, -, rfl⟩ := updateByte_cases h
  · exact hinv.refuse _
  · exact hinv.refuse _
  · exact hinv.withFb (Memory.write_wf a _ hinv.bufferCanonical)

theorem exec_inv (hinv : s.Inv) {i : Instr} (hadmitted : s.streaming = none ∨ isBufferPrimitive i = true) {t : State}
    (h : exec i s = .next t) : t.Inv := by
  obtain hidle | hi := hadmitted
  · cases i with
    | init p b n => exact exec_init_inv hinv h
    | setbrt pct => exact exec_setbrt_inv hinv hidle h
    | start => exact exec_start_inv hinv hidle h
    | stop => exact exec_stop_inv hinv hidle h
    | tick => exact exec_tick_inv hinv hidle h
    | fbset a m => exact exec_primitive_inv hinv rfl h
    | fbclr a m => exact exec_primitive_inv hinv rfl h
    | fbwr a v => exact exec_primitive_inv hinv rfl h
  · exact exec_primitive_inv hinv hi h

/-! ### So does each read of an interleaved transition -/

section streamByte
variable (c : Config) (base : PortWord c.width) (v : Byte) (p : Pins c.width)

/-- A streamed byte writes the lines of the base but for the clock and the data lines (R148). -/
theorem streamByte_port_bit {i : Nat} (hclk : i ≠ c.clkPin) (hdata : i ∉ c.dataPins) :
    (streamByte c base v p).port.getLsbD i = base.getLsbD i := by
  simp [c.tableWord_off v hdata, c.clk_bit, hclk]

theorem streamByte_port_lat : (streamByte c base v p).port.getLsbD c.latPin = base.getLsbD c.latPin :=
  streamByte_port_bit c base v p c.controlPins_ne_symm.1 c.control_not_data.2.1

theorem streamByte_port_oe : (streamByte c base v p).port.getLsbD c.oePin = base.getLsbD c.oePin :=
  streamByte_port_bit c base v p c.controlPins_ne_symm.2.1 c.control_not_data.2.2.1

theorem streamByte_port_and_not_owned :
    (streamByte c base v p).port &&& ~~~c.ownedMask = base &&& ~~~c.ownedMask :=
  c.word_ext fun i => by
    rw [getLsbD_andNot, getLsbD_andNot, c.ownedMask_bit]
    by_cases hi : i ∈ c.ownedPins
    · simp [hi]
    · simp [c.masks_unowned hi]

end streamByte

theorem readStep_inv (hinv : s.Inv) {r : Streaming s.cfg.width} (hr : s.streaming = some r) : (readStep s r).Inv := by
  obtain ⟨hphase, hinterleave, hsb, -, -, -, hlat, hoe, hlow, -⟩ := hinv.readsInSlice r hr

  have hinit : s.phase ≠ .uninit := by simp [hphase]
  by_cases hmore : r.offset + 1 < s.N
  · have hbaselat : r.base.getLsbD s.cfg.latPin = false := (s.cfg.and_lat_eq_zero_iff _).1 hlat
    have hbaseoe : r.base.getLsbD s.cfg.oePin = true := (s.cfg.and_oe_eq_oe_iff _).1 hoe
    rw [readStep, if_pos hmore]
    exact {
      bufferCanonical := hinv.bufferCanonical
      enabledIffRunning := hinv.enabledIffRunning
      armedIffInitialised := hinv.armedIffInitialised
      untouched := fun h => absurd h hinit
      configured := fun _ => hinv.configured hinit
      portIsLastWord := fun _ => rfl
      cursorInRange := hinv.cursorInRange
      linesIdle := fun _ h => nomatch h
      readsInSlice := by
        rintro _ ⟨⟩
        exact ⟨hphase, hinterleave, hsb, hmore,
          (s.cfg.and_lat_eq_zero_iff _).2 ((streamByte_port_lat s.cfg _ _ _).trans hbaselat),
          (s.cfg.and_oe_eq_oe_iff _).2 ((streamByte_port_oe s.cfg _ _ _).trans hbaseoe), hlat, hoe, hlow,
          (streamByte_port_and_not_owned s.cfg _ _ _).symm⟩ }
  · rw [readStep, if_neg hmore]
    have hfinish := finishTransition_settles s.cfg s.bank (streamByte s.cfg r.base (s.fb.read (r.sb + r.offset)) s.pins)
    exact hinv.settled hinit { hfinish with dir := hfinish.dir } hinv.cursorInRange rfl


end inv

/-- Settles O46: what a step can do, each case by the lemma that it keeps the invariant. -/
theorem stepKeepsTheInvariant : Obligations.StepKeepsTheInvariant := by
  intro s t hinv h
  obtain ⟨-, rfl⟩ | ⟨c, rest, -, ⟨i, -, hadmitted, hexec⟩ | ⟨w, e, -, -, -, rfl⟩ | ⟨r, -, hr, rfl⟩⟩ := step_cases h
  · exact hinv
  · exact exec_inv (hinv.popped rest) hadmitted hexec
  · exact (hinv.popped rest).refuse _
  · exact readStep_inv (s := s.popped rest) (hinv.popped rest) hr

end Sys2Proof.Machine

/-! What the invariant says of a state: the launch states meet it (spec/10_state.md R37), and with it go the timer's
interval (spec/60_exceptions.md R230) and what reaches the pins (spec/20_memory.md R62). -/

namespace Sys2Proof

/-- `BASE_INTERVAL` is at least 64, so no legal plane count shifts it to 0 (R230). -/
theorem Config.baseInterval_div_pos (c : Config) {P : Nat} (hP : P ≤ 6) : 1 ≤ c.baseInterval / 2 ^ P :=
  Nat.div_pos ((Nat.pow_le_pow_right Nat.two_pos hP).trans c.baseInterval_ge) (Nat.two_pow_pos P)

end Sys2Proof

namespace Sys2Proof.Machine

theorem launch_inv (cfg : Config) (port : PortWord cfg.width) (bank plane : Nat) (subcount : BitVec 8)
    (tableBuilt : Bool) {fb : Memory} (hfb : fb.wf = true) :
    (State.launch cfg port bank plane subcount tableBuilt fb).Inv where
  bufferCanonical := hfb
  enabledIffRunning := by simp [State.launch]
  armedIffInitialised := by simp [State.launch]
  untouched _ := ⟨rfl, rfl, rfl⟩
  configured h := absurd rfl h
  portIsLastWord h := absurd rfl h
  cursorInRange h := nomatch h
  linesIdle h := absurd rfl h
  readsInSlice _ h := nomatch h

/-- Settles O44: in UNINIT the invariant asks for the canonical buffer and for what R37 fixes. -/
theorem launchStatesMeetTheInvariant : Obligations.LaunchStatesMeetTheInvariant :=
  ⟨fun cfg port b p c built _ => launch_inv cfg port b p c built, launch_inv _ _ _ _ _ _ Memory.reset_wf⟩

/-- Settles O43: the invariant's interval is a shift by a legal plane count. -/
theorem timerIntervalIsNeverZero : Obligations.TimerIntervalIsNeverZero := by
  intro s hinv hphase
  obtain ⟨hlegal, -, hinterval, -⟩ := hinv.configured hphase
  obtain ⟨-, hP, -⟩ := legalGeometry_iff.1 hlegal
  rw [hinterval, Nat.shiftRight_eq_div_pow]
  exact ⟨s.cfg.baseInterval_div_pos hP, rfl⟩

/-- Settles O45: before INIT `DIR` drives no line, after it every owned one. -/
theorem ownedLinesReachThePins : Obligations.OwnedLinesReachThePins := by
  intro s w hinv
  refine ⟨fun hphase => ?_, fun hphase => ?_⟩
  · obtain ⟨-, hdir, -⟩ := hinv.untouched hphase
    rw [State.onPins, hdir, BitVec.and_zero]
  · obtain ⟨-, -, -, hdir⟩ := hinv.configured hphase
    rw [State.onPins, BitVec.and_assoc, BitVec.and_comm s.cfg.ownedMask, hdir]

end Sys2Proof.Machine

/-! Delivery (spec/20_memory.md R57, R58; spec/70_reset_and_hazards.md R266): which command runs, and which has no step. -/

namespace Sys2Proof.Machine

section deliver
variable {s : State} {rest : List Command}

theorem step_word {w : CommandWord} {i : Instr} (hnext : s.pending = .word w :: rest) (h : decode w = .ok i) :
    step s = deliverInstr i (s.popped rest) := by
  simp only [step_cons hnext, deliver, deliverWord, h]

theorem step_op {i : Instr} (hnext : s.pending = .op i :: rest) : step s = deliverInstr i (s.popped rest) :=
  step_cons hnext

theorem decode_error_of_commandInstr {w : CommandWord} (h : commandInstr (.word w) = none) :
    ∃ e, decode w = .error e := by
  rw [commandInstr] at h
  cases hw : decode w with
  | ok i =>
    rw [hw] at h
    cases h
  | error e => exact ⟨e, rfl⟩

theorem deliverInstr_primitive {i : Instr}
 (h : isBufferPrimitive i = true) : deliverInstr i s = exec i s := by
  simp [deliverInstr, h]

theorem deliverInstr_refused {i : Instr} (hstreaming : s.streaming.isSome = true) (h : isBufferPrimitive i = false) :
    deliverInstr i s = .refused .transitionInProgress := by
  simp [deliverInstr, hstreaming, h]

theorem step_reserved_word {w : CommandWord} {e : DecodeError} (hstreaming : s.streaming.isSome = true)
    (hnext : s.pending = .word w :: rest) (h : decode w = .error e) : step s = .refused .transitionInProgress := by
  simp [step_cons hnext, deliver, deliverWord, h, hstreaming]

theorem step_nextRead {r : Streaming s.cfg.width} (hr : s.streaming = some r) (hnext : s.pending = .nextRead :: rest) :
    step s = .next (readStep (s.popped rest) r) := by
  rw [step_cons hnext]
  simp [deliver, deliverRead, hr]

theorem step_nextRead_idle (hidle : s.streaming = none) (hnext : s.pending = .nextRead :: rest) :
    step s = .refused .noTransitionInProgress := by
  rw [step_cons hnext]
  simp [deliver, deliverRead, hidle]

/-- A word that decodes and an operation in its normal form are delivered alike. -/
theorem step_of_commandInstr {c : Command} {i : Instr} (hnext : s.pending = c :: rest) (h : commandInstr c = some i) :
    step s = deliverInstr i (s.popped rest) := by
  cases c with
  | word w =>
    rw [commandInstr] at h
    cases hw : decode w with
    | ok j =>
      rw [hw] at h
      cases h
      exact step_word hnext hw
    | error e =>
      rw [hw] at h
      cases h
  | op j =>
    cases h
    exact step_op hnext
  | nextRead => cases h

/-- Of the operations delivered to a state two kinds have no step: a TICK that does not exist, and whatever R58 does not
allow inside a transition. -/
theorem deliverInstr_completes (i : Instr) (s : State) :
    (∃ t, deliverInstr i s = .next t) ∨ (i = .tick ∧ ¬ (s.phase = .running ∧ s.timerEnabled = true)) ∨
    (s.streaming.isSome = true ∧ isBufferPrimitive i = false) := by
  by_cases hbusy : s.streaming.isSome = true ∧ isBufferPrimitive i = false
  · exact .inr (.inr hbusy)
  · have hexec : deliverInstr i s = exec i s := if_neg (by simpa using hbusy)
    rw [hexec]
    obtain hnext | ⟨htick, hdisabled, -⟩ := exec_next_or_disabled i s
    · exact .inl hnext
    · exact .inr (.inl ⟨htick, by simp [← tickEnabled_iff_running, hdisabled]⟩)

end deliver

/-- Settles O5: with no transition going on a delivered operation is run as it is. -/
theorem stepRunsTheNextOperation : Obligations.StepRunsTheNextOperation := by
  intro s hidle
  exact ⟨step_nil, fun w rest i hnext h => (step_word hnext h).trans (deliverInstr_idle hidle),
    fun i rest hnext => step_op_of_idle hnext hidle⟩

/-- Settles O54: an operation, however it is spelled, then a reserved word, then a read. -/
theorem everyEnabledStepCompletes : Obligations.EveryEnabledStepCompletes := by
  intro s
  cases hnext : s.pending with
  | nil => exact .inl ⟨s, step_nil hnext⟩
  | cons c rest =>
    cases hc : commandInstr c with
    | some i =>
      rw [step_of_commandInstr hnext hc]
      obtain hdone | ⟨rfl, hdisabled⟩ | ⟨hbusy, hi⟩ := deliverInstr_completes i (s.popped rest)
      · exact .inl hdone
      · exact .inr ⟨c, rest, rfl, .inl ⟨hc, hdisabled⟩⟩
      · have hne : c ≠ .nextRead := by
          rintro rfl
          cases hc
        exact .inr ⟨c, rest, rfl, .inr (.inl ⟨hbusy, hne, by simpa [hc] using hi⟩)⟩
    | none =>
      cases c with
      | op i => cases hc
      | word w =>
        cases hs : s.streaming with
        | none =>
          obtain ⟨e, hw⟩ := decode_error_of_commandInstr hc
          exact .inl ⟨_, step_of_reserved_word hs hnext hw⟩
        | some r => exact .inr ⟨_, rest, rfl, .inr (.inl ⟨rfl, by simp, by simp [hc]⟩)⟩
      | nextRead =>
        cases hs : s.streaming with
        | none => exact .inr ⟨_, rest, rfl, .inr (.inr ⟨rfl, rfl⟩)⟩
        | some r => exact .inl ⟨_, step_nextRead hs hnext⟩

/-! ### One read of an interleaved transition (R58) -/

theorem readStep_of_more {s : State} {r : Streaming s.cfg.width} (h : r.offset + 1 < s.N) :
    readStep s r = { s with pins := streamByte s.cfg r.base (s.fb.read (r.sb + r.offset)) s.pins,
                            streaming := some { r with offset := r.offset + 1 } } :=
  if_pos h

theorem readStep_of_last {s : State} {r : Streaming s.cfg.width} (h : ¬ r.offset + 1 < s.N) :
    readStep s r =
      { s with pins := finishTransition s.cfg s.bank
                 (streamByte s.cfg r.base (s.fb.read (r.sb + r.offset)) s.pins), streaming := none } :=
  if_neg h

/-- The words of a read: the two of its byte, and with the last byte the five closing ones. -/
theorem readStep_emits (s : State) (r : Streaming s.cfg.width) : ∃ p : Pins s.cfg.width,
    readStep s r = { s with pins := p, streaming := if r.offset + 1 < s.N then some { r with offset := r.offset + 1 }
                                                    else none } ∧
    p.dir = s.pins.dir ∧ p.emitted.head? = some p.port ∧
    p.emitted.reverse = s.pins.emitted.reverse ++
      (streamWords s.cfg r.base [s.fb.read (r.sb + r.offset)] ++
        if r.offset + 1 < s.N then []
        else closingWords s.cfg s.bank
          ((r.base ||| s.cfg.tableWord (s.fb.read (r.sb + r.offset)) ||| s.cfg.clk) &&& ~~~s.cfg.clk)) := by
  by_cases h : r.offset + 1 < s.N
  · refine ⟨streamByte s.cfg r.base (s.fb.read (r.sb + r.offset)) s.pins, ?_, rfl, rfl, ?_⟩
    · rw [readStep_of_more h, if_pos h]
    · simp [h, streamWords]
  · refine ⟨finishTransition s.cfg s.bank (streamByte s.cfg r.base (s.fb.read (r.sb + r.offset)) s.pins), ?_, rfl, rfl,
      ?_⟩
    · rw [readStep_of_last h, if_neg h]
    · obtain ⟨-, hemitted, -⟩ := finishTransition_spec s.cfg s.bank
        (streamByte s.cfg r.base (s.fb.read (r.sb + r.offset)) s.pins)
      rw [hemitted]
      simp [h, streamWords]

/-- Settles O6: each command by what its delivery does inside a transition, and a read outside one. -/
theorem onlyPrimitivesRunInsideATransition : Obligations.OnlyPrimitivesRunInsideATransition := by
  refine ⟨fun s r hr => ?_, fun s rest => step_nextRead_idle⟩
  have hbusy : s.streaming.isSome = true := by simp [hr]
  refine ⟨fun rest hnext => ?_, fun w rest i hnext hw hi => (step_word hnext hw).trans (deliverInstr_primitive hi),
    fun w rest i hnext hw hi => (step_word hnext hw).trans (deliverInstr_refused hbusy hi),
    fun i rest hnext hi => (step_op hnext).trans (deliverInstr_primitive hi),
    fun w rest e => step_reserved_word hbusy,
    fun i rest hnext hi => (step_op hnext).trans (deliverInstr_refused hbusy hi)⟩
  obtain ⟨p, hread, hdir, hlast, hwords⟩ := readStep_emits (s.popped rest) r
  exact ⟨p, (step_nextRead hr hnext).trans (congrArg _ hread), hdir, hlast, hwords⟩

/-! ### Issued primitives (R97, R266) -/

/-- A buffer primitive does not look at the run to come, completes, and leaves the run and the scheduler alone. -/
theorem exec_primitive_completes {i : Instr} (hi : isBufferPrimitive i = true) (s : State) :
    ∃ t, exec i s = .next t ∧ t.pending = s.pending ∧ t.streaming.isSome = s.streaming.isSome ∧
      ∀ rest, exec i (s.popped rest) = .next (t.popped rest) := by
  obtain ⟨a, f, -, hexec⟩ := exec_primitive hi
  simp only [hexec]
  by_cases hphase : s.phase = .uninit
  · exact ⟨_, updateByte_of_uninit f hphase, rfl, rfl, fun rest => updateByte_of_uninit (s := s.popped rest) f hphase⟩
  · by_cases ha : s.bufferSize ≤ a
    · exact ⟨_, updateByte_of_bufferSize_le f hphase ha, rfl, rfl,
        fun rest => updateByte_of_bufferSize_le (s := s.popped rest) f hphase ha⟩
    · have ha := Nat.lt_of_not_le ha
      exact ⟨_, updateByte_next f hphase ha, rfl, rfl, fun rest => updateByte_next (s := s.popped rest) f hphase ha⟩


theorem execAll_of_next {i : Instr} {is : List Instr} {s t : State} (h : exec i s = .next t) :
    execAll (i :: is) s = execAll is t := by
  rw [execAll_cons, h]

theorem run_of_step {k : Nat} {s t : State} (h : step s = .next t) :
    Host.Core.run core (k + 1) s = Host.Core.run core k t := by
  have hstep : Host.Core.step core s = .next t := h
  simp only [Host.Core.run, hstep]

/-- The run of a list of primitives from the state in which they are all that is to come. -/
theorem run_primitives {is : List Instr} {s : State} (his : ∀ i ∈ is, isBufferPrimitive i = true)
    (hidle : s.streaming = none) : ∃ t, execAll is s = .next t ∧ t.pending = s.pending ∧
      Host.Core.run core is.length (s.popped (is.map .op)) = .next (t.popped []) := by
  induction is generalizing s with
  | nil => exact ⟨s, rfl, rfl, rfl⟩
  | cons i is ih =>
    obtain ⟨hi, his⟩ := List.forall_mem_cons.1 his
    obtain ⟨u, hexec, hpending, hstreaming, hpopped⟩ := exec_primitive_completes hi s
    have hu : u.streaming = none := by simpa [hidle] using hstreaming
    obtain ⟨t, hall, hkept, hrun⟩ := ih his hu
    have hstep : step (s.popped ((i :: is).map .op)) = .next (u.popped (is.map .op)) :=
      (step_op_of_idle (s := s.popped _) rfl hidle).trans (hpopped (is.map .op))

    exact ⟨t, (execAll_of_next hexec).trans hall, hkept.trans hpending, (run_of_step hstep).trans hrun⟩

/-- Settles O7: with nothing else to come, issuing the list makes it the run. -/
theorem issuedPrimitivesRunInOrder : Obligations.IssuedPrimitivesRunInOrder := by
  intro s is hnothing hidle his
  obtain ⟨t, hall, hkept, hrun⟩ := run_primitives his hidle
  have hissue : s.issue is = s.popped (is.map .op) := by rw [State.issue, hnothing, List.nil_append, State.popped]
  have hnone : t.popped [] = t := by rw [State.popped, ← hnothing, ← hkept]
  exact ⟨t, by rw [hissue, hrun, hnone], hall⟩


end Sys2Proof.Machine

/-! What no step writes: the configuration (spec/10_state.md R21, spec/44_lifecycle.md R209), a mark already set
(spec/10_state.md R32), and, but for the buffer primitives, the buffer (R28). -/

namespace Sys2Proof.Machine

theorem exec_stop_of_initialised {s : State} (hphase : s.phase ≠ .uninit) :
    exec .stop s = .next { s with timerEnabled := false, phase := .ready } := by
  obtain ⟨t, hstop⟩ := exec_completes (i := .stop) (s := s) nofun
  obtain ⟨huninit, -⟩ | ⟨-, rfl⟩ := execStop_cases hstop
  · exact absurd huninit hphase
  · exact hstop

/-- Settles O41: STOP is refused in UNINIT, and in both other phases it only disables the timer. -/
theorem stopOnlyDisablesTheTimer : Obligations.StopOnlyDisablesTheTimer :=
  fun s => ⟨fun hphase => by simp only [exec, execStop, hphase], exec_stop_of_initialised⟩

/-! ### The configuration -/

/-- `t` has the build-time parameters of `s`; and if `s` is initialised so is `t`, with what INIT wrote. -/
def State.KeepsConfiguration (s t : State) : Prop :=
  t.cfg = s.cfg ∧
  (s.phase ≠ .uninit → t.phase ≠ .uninit ∧ t.P = s.P ∧ t.B = s.B ∧ t.N = s.N ∧ t.timerInterval = s.timerInterval ∧
    t.timerArmed = s.timerArmed ∧ t.tableBuilt = s.tableBuilt)

/-- Only these fields are looked at, so this is also the proof for a state with other pins, cursor, buffer or mark. -/
theorem State.KeepsConfiguration.refl (s : State) : s.KeepsConfiguration s :=
  ⟨rfl, fun hphase => ⟨hphase, rfl, rfl, rfl, rfl, rfl, rfl⟩⟩

theorem transition_keepsConfiguration (s : State) : s.KeepsConfiguration (transition s) := by
  unfold transition
  split <;> exact .refl s

theorem readStep_keepsConfiguration (s : State) (r : Streaming s.cfg.width) : s.KeepsConfiguration (readStep s r) := by
  unfold readStep
  split <;> exact .refl s

theorem exec_primitive_keepsConfiguration {i : Instr} {s t : State} (hi : isBufferPrimitive i = true)
    (h : exec i s = .next t) : s.KeepsConfiguration t := by
  obtain ⟨r, rfl⟩ | ⟨m, rfl⟩ := exec_primitive_cases hi h <;> exact .refl s

/-- INIT writes it only in UNINIT; START and STOP move between READY and RUNNING (R209). -/
theorem exec_keepsConfiguration {i : Instr} {s t : State} (h : exec i s = .next t) : s.KeepsConfiguration t := by
  cases i with
  | init p b n =>
    obtain ⟨-, rfl⟩ | ⟨-, -, rfl⟩ | ⟨hphase, -, rfl⟩ := execInit_cases h
    · exact .refl s
    · exact .refl s
    · exact ⟨rfl, fun hinit => absurd hphase hinit⟩
  | setbrt pct => obtain ⟨-, rfl⟩ | ⟨-, rfl⟩ | ⟨-, rfl⟩ := execSetbrt_cases h <;> exact .refl s
  | start =>
    obtain ⟨-, rfl⟩ | ⟨-, rfl⟩ | ⟨-, rfl⟩ := execStart_cases h
    · exact .refl s
    · exact .refl s
    · exact ⟨rfl, fun _ => ⟨nofun, rfl, rfl, rfl, rfl, rfl, rfl⟩⟩
  | stop =>
    obtain ⟨-, rfl⟩ | ⟨-, rfl⟩ := execStop_cases h
    · exact .refl s
    · exact ⟨rfl, fun _ => ⟨nofun, rfl, rfl, rfl, rfl, rfl, rfl⟩⟩
  | tick =>
    obtain ⟨-, ⟨-, rfl⟩ | ⟨-, rfl⟩⟩ := execTick_cases h
    · exact .refl s
    · exact transition_keepsConfiguration s
  | fbset a m => exact exec_primitive_keepsConfiguration rfl h
  | fbclr a m => exact exec_primitive_keepsConfiguration rfl h
  | fbwr a v => exact exec_primitive_keepsConfiguration rfl h

/-- Settles O49: of what a step can do, only INIT could write the configuration, and an initialised block refuses it. -/
theorem configurationIsWrittenOnce : Obligations.ConfigurationIsWrittenOnce := by
  intro s t h
  obtain ⟨-, rfl⟩ | ⟨c, rest, -, ⟨i, -, -, hexec⟩ | ⟨w, e, -, -, -, rfl⟩ | ⟨r, -, -, rfl⟩⟩ := step_cases h
  · exact State.KeepsConfiguration.refl _
  · exact exec_keepsConfiguration (s := s.popped rest) hexec
  · exact State.KeepsConfiguration.refl s
  · exact readStep_keepsConfiguration (s.popped rest) r

/-! ### The mark -/

theorem readStep_refused (s : State) (r : Streaming s.cfg.width) : (readStep s r).refused = s.refused := by
  unfold readStep
  split <;> rfl

/-- Whatever the table answers, a mark already set stays. -/
theorem AnswersRefusal.marked {reason : Option RefusalReason} {s t : State} (h : AnswersRefusal reason s t)
    {r : RefusalReason} (hr : s.refused = some r) : t.refused = some r := by
  cases reason with
  | none => exact Eq.trans h hr
  | some q =>
    have ht : t = refuse q s := h
    simp [ht, hr]

/-- Settles O51: an operation answers the refusal table, an illegal word is a refusal, and a read refuses nothing. -/
theorem firstRefusalMarksTheRun : Obligations.FirstRefusalMarksTheRun := by
  intro s t mark h hmark
  obtain ⟨-, rfl⟩ | ⟨c, rest, -, ⟨i, -, -, hexec⟩ | ⟨w, e, -, -, -, rfl⟩ | ⟨r, -, -, rfl⟩⟩ := step_cases h
  · exact hmark
  · exact (exec_answersRefusal (s := s.popped rest) hexec).marked hmark
  · simp [hmark]
  · exact (readStep_refused (s.popped rest) r).trans hmark

/-! ### The buffer -/

theorem transition_fb (s : State) : (transition s).fb = s.fb := by
  unfold transition
  split <;> rfl

theorem readStep_fb (s : State) (r : Streaming s.cfg.width) : (readStep s r).fb = s.fb := by
  unfold readStep
  split <;> rfl

/-- A primitive is refused, or it writes its byte inside the buffer (R121). -/
theorem exec_primitive_fb {i : Instr} {s t : State} (hi : isBufferPrimitive i = true) (h : exec i s = .next t) :
    t.fb = s.fb ∨ ∃ a f, byteUpdate i = some (a, f) ∧ s.phase ≠ .uninit ∧ a < s.bufferSize ∧
      t.fb = s.fb.write a (f (s.fb.read a)) := by
  obtain ⟨a, f, hupdate, hexec⟩ := exec_primitive hi
  rw [hexec] at h
  obtain ⟨-, rfl⟩ | ⟨-, -, rfl⟩ | ⟨hphase, ha, rfl⟩ := updateByte_cases h
  · exact .inl rfl
  · exact .inl rfl
  · exact .inr ⟨a, f, hupdate, hphase, ha, rfl⟩

theorem exec_fb {i : Instr} {s t : State} (h : exec i s = .next t) :
    t.fb = s.fb ∨ ∃ a f, byteUpdate i = some (a, f) ∧ s.phase ≠ .uninit ∧ a < s.bufferSize ∧
      t.fb = s.fb.write a (f (s.fb.read a)) := by
  cases i with
  | init p b n => obtain ⟨-, rfl⟩ | ⟨-, -, rfl⟩ | ⟨-, -, rfl⟩ := execInit_cases h <;> exact .inl rfl
  | setbrt pct => obtain ⟨-, rfl⟩ | ⟨-, rfl⟩ | ⟨-, rfl⟩ := execSetbrt_cases h <;> exact .inl rfl
  | start => obtain ⟨-, rfl⟩ | ⟨-, rfl⟩ | ⟨-, rfl⟩ := execStart_cases h <;> exact .inl rfl
  | stop => obtain ⟨-, rfl⟩ | ⟨-, rfl⟩ := execStop_cases h <;> exact .inl rfl
  | tick =>
    obtain ⟨-, ⟨-, rfl⟩ | ⟨-, rfl⟩⟩ := execTick_cases h
    · exact .inl rfl
    · exact .inl (transition_fb s)
  | fbset a m => exact exec_primitive_fb rfl h
  | fbclr a m => exact exec_primitive_fb rfl h
  | fbwr a v => exact exec_primitive_fb rfl h

/-- Settles O52: of what a step can do, only a primitive writes a byte, as a read after that write shows. -/
theorem onlyPrimitivesWriteTheBuffer : Obligations.OnlyPrimitivesWriteTheBuffer := by
  intro s t h
  obtain ⟨-, rfl⟩ | ⟨c, rest, hnext, ⟨i, hi, -, hexec⟩ | ⟨w, e, -, -, -, rfl⟩ | ⟨r, -, -, rfl⟩⟩ := step_cases h
  · exact .inl rfl
  · obtain hsame | ⟨a, f, hupdate, hphase, ha, hfb⟩ := exec_fb hexec
    · exact .inl hsame
    · obtain ⟨hbyte, hframe⟩ := bufferReadAfterWrite s.fb a (f (s.fb.read a))
      exact .inr ⟨c, rest, i, a, f, hnext, hi, hupdate, hphase, ha, hfb ▸ hbyte, hfb ▸ hframe⟩
  · exact .inl rfl
  · exact .inl (readStep_fb (s.popped rest) r)

end Sys2Proof.Machine

/-! The gain code and the control word (spec/43_brightness.md R173 to R176), and the decomposition of a buffer address
(spec/30_encoding.md R84). -/

namespace Sys2Proof.Machine

section gain
variable {pct : Nat}

theorem gain_of_le_12 (h : pct ≤ 12) : gain pct = 0 :=
  if_pos h

theorem gain_of_le_100 (h12 : 12 < pct) (h100 : pct ≤ 100) : gain pct = (pct - 12) * 43 / 88 := by
  rw [gain, if_neg (Nat.not_le.2 h12), if_pos h100]

theorem gain_of_lt_200 (h100 : 100 < pct) (h200 : pct < 200) : gain pct = 43 + (pct - 100) * 20 / 100 := by
  rw [gain, if_neg (by omega), if_neg (Nat.not_le.2 h100), if_pos h200]

theorem gain_of_ge_200 (h200 : 200 ≤ pct) : gain pct = 63 := by
  rw [gain, if_neg (by omega), if_neg (by omega), if_neg (Nat.not_lt.2 h200)]

end gain

/-- Settles O32: each segment is a division, and a division is rounded down. -/
theorem gainFollowsTheSegments : Obligations.GainFollowsTheSegments := by
  intro pct
  refine ⟨gain_of_le_12, fun h12 h100 => ?_, fun h100 h200 => ?_, gain_of_ge_200⟩
  · rw [gain_of_le_100 h12 h100]
    omega
  · rw [gain_of_lt_200 h100 h200]
    omega

theorem gain_mono : Monotone gain := by
  refine monotone_nat_of_le_succ fun pct => ?_
  simp only [gain]
  split_ifs <;> omega

theorem gain_le_63 (pct : Nat) : gain pct ≤ 63 :=
  calc gain pct
    _ ≤ gain (max pct 200) := gain_mono (le_max_left pct 200)
    _ = 63 := gain_of_ge_200 (le_max_right pct 200)

/-- A percentage with the gain code `g`: the least one on the lower segment, every fifth one on the upper. -/
def gainPreimage (g : Nat) : Nat := if g ≤ 43 then 12 + (88 * g + 42) / 43 else 100 + 5 * (g - 43)

theorem gain_gainPreimage {g : Nat} (hg : g < 64) : gain (gainPreimage g) = g := by
  simp only [gainPreimage, gain]
  split_ifs <;> omega

theorem gainPreimage_lt {g : Nat} (hg : g < 64) : gainPreimage g < 256 := by
  unfold gainPreimage
  split <;> omega

/-- Settles O33: the bound is the value at 200 by monotonicity; the named points and every code are evaluated. -/
theorem gainIsMonotonic : Obligations.GainIsMonotonic :=
  ⟨fun _ _ h => gain_mono h, gain_le_63, rfl, rfl, rfl, fun g hg => ⟨gainPreimage g, gainPreimage_lt hg, gain_gainPreimage hg⟩⟩

theorem controlWord_toNat (pre : BitVec 10) (pct : Byte) :
    (controlWord pre pct).toNat = pre.toNat * 64 + gain pct.toNat := by
  have hgain : gain pct.toNat < 2 ^ 6 := Nat.lt_succ_of_le (gain_le_63 pct.toNat)
  rw [controlWord, BitVec.toNat_append, BitVec.toNat_ofNat, Nat.mod_eq_of_lt hgain,
    ← Nat.shiftLeft_add_eq_or_of_lt hgain, Nat.shiftLeft_eq]

/-- Settles O34: the word is an append, and the gain code fits its six bits. -/
theorem controlWordLayout : Obligations.ControlWordLayout :=
  fun pre pct => ⟨controlWord_toNat pre pct, BitVec.extractLsb'_append_eq_left⟩

/-! ### Buffer addresses -/

theorem planeOf_fbAddress {B N p b i : Nat} (hb : b < B) (hi : i < N) : planeOf B N (fbAddress B N p b i) = p := by
  rw [planeOf, fbAddress, Nat.mul_comm B N, ← Nat.div_div_eq_div_mul, Nat.mul_comm _ N,
    Nat.mul_add_div (Nat.zero_lt_of_lt hi), Nat.div_eq_of_lt hi, Nat.add_zero, Nat.mul_comm p,
    Nat.mul_add_div (Nat.zero_lt_of_lt hb), Nat.div_eq_of_lt hb, Nat.add_zero]

theorem bankOf_fbAddress {B N p b i : Nat} (hb : b < B) (hi : i < N) : bankOf B N (fbAddress B N p b i) = b := by
  rw [bankOf, fbAddress, Nat.mul_comm _ N, Nat.mul_add_div (Nat.zero_lt_of_lt hi), Nat.div_eq_of_lt hi, Nat.add_zero,
    Nat.mul_comm p, Nat.mul_add_mod, Nat.mod_eq_of_lt hb]

theorem offsetOf_fbAddress {B N p b i : Nat} (hi : i < N) : offsetOf N (fbAddress B N p b i) = i := by
  rw [offsetOf, fbAddress, Nat.mul_comm _ N, Nat.mul_add_mod, Nat.mod_eq_of_lt hi]

/-- Settles O13, field by field. -/
theorem bufferAddressDecomposes : Obligations.BufferAddressDecomposes :=
  fun _ _ _ _ _ hb hi => ⟨planeOf_fbAddress hb hi, bankOf_fbAddress hb hi, offsetOf_fbAddress hi⟩

end Sys2Proof.Machine

/-! The configurations that can be built (spec/00_scope.md R10, spec/41_framebuffer_ops.md R127, R129). -/

namespace Sys2Proof

theorem Config.ownedPins_length (c : Config) : c.ownedPins.length = 13 := by
  simp [Params.ownedPins, Params.controlPins, c.dataPins_length]

theorem Config.channels_wf (c : Config) : c.geometry.channelsWellFormed = true := by
  have h := c.geometry_wf
  rw [Geometry.wellFormed, Bool.and_eq_true] at h
  exact h.2

theorem Geometry.chBits_pos_of_no_gamma {g : Geometry} (h : g.channelsWellFormed = true) (hgamma : g.gamma = none) :
    1 ≤ g.chBits := by
  simpa [channelsWellFormed, hgamma] using h

theorem Geometry.gamma_wf {g : Geometry} (h : g.channelsWellFormed = true) {t : List Nat} (hgamma : g.gamma = some t) :
    t.length = 2 ^ g.chBits ∧ t.Pairwise (· ≤ ·) := by
  simp only [channelsWellFormed, hgamma, Bool.and_eq_true, decide_eq_true_eq] at h
  obtain ⟨⟨hlength, -⟩, hsorted⟩ := h
  exact ⟨hlength, hsorted⟩

/-- The table has an entry for every channel value, so `corrected` takes no default. -/
theorem Geometry.gamma_getElem? {g : Geometry} {t : List Nat} (hgamma : g.gamma = some t)
    (hlength : t.length = 2 ^ g.chBits) (v : BitVec g.chBits) : t[v.toNat]? = some (g.corrected v) := by
  have hv : v.toNat < t.length := hlength ▸ v.isLt
  simp [corrected, hgamma, hv]

/-- Settles O55: the check made when a configuration is built, taken apart. -/
theorem builtConfigurationsAreWellFormed : Obligations.BuiltConfigurationsAreWellFormed := by
  intro c
  obtain ⟨hwidth, hdata, hpins, hdistinct, hchips, -, -⟩ := c.wf_facts
  refine ⟨hwidth, hdata, c.ownedPins_length, hdistinct, hpins, hchips, fun P _ hP => c.baseInterval_div_pos hP,
    fun x y hx hy => ?_, Geometry.chBits_pos_of_no_gamma c.channels_wf, fun t ht => ?_⟩
  · obtain ⟨hbank, hline⟩ := c.row_in_range (Nat.ne_zero_of_lt hx) hy
    exact ⟨hbank, c.pixelLine y, hline, rfl⟩
  · obtain ⟨hlength, hsorted⟩ := Geometry.gamma_wf c.channels_wf ht
    exact ⟨hlength, hsorted, Geometry.gamma_getElem? ht hlength⟩

end Sys2Proof

/-! The words of a transition (spec/42_refresh_scheduler.md R153, R154, R157): its clock edges, and the levels of its lines
word by word. -/

namespace Sys2Proof

section lines
variable (c : Config) {x y : PortWord c.width}

theorem Config.and_addrMask_eq_iff : x &&& c.addrMask = y &&& c.addrMask ↔
    x.getLsbD c.a0Pin = y.getLsbD c.a0Pin ∧ x.getLsbD c.a1Pin = y.getLsbD c.a1Pin := by
  refine ⟨fun h => ⟨?_, ?_⟩, fun ⟨h0, h1⟩ => c.word_ext fun i => ?_⟩
  · simpa [c.addrMask_bit] using congrArg (·.getLsbD c.a0Pin) h
  · simpa [c.addrMask_bit] using congrArg (·.getLsbD c.a1Pin) h
  · rw [BitVec.getLsbD_and, BitVec.getLsbD_and, c.addrMask_bit]
    by_cases ha0 : i = c.a0Pin
    · rw [ha0, h0]
    · by_cases ha1 : i = c.a1Pin
      · rw [ha1, h1]
      · simp [ha0, ha1]

theorem Config.addr_and_addrMask (b : Nat) : c.addr b &&& c.addrMask = c.addr b := by
  refine c.word_ext fun i => ?_
  rw [BitVec.getLsbD_and, c.addr_bit, c.addrMask_bit]
  cases decide (i = c.a0Pin) <;> cases decide (i = c.a1Pin) <;> simp

theorem Config.and_addrMask_eq_addr_iff {b : Nat} : x &&& c.addrMask = c.addr b ↔
    x.getLsbD c.a0Pin = b.testBit 0 ∧ x.getLsbD c.a1Pin = b.testBit 1 := by
  rw [← c.addr_and_addrMask b, c.and_addrMask_eq_iff]
  simp [c.addr_bit, c.controlPins_ne, c.controlPins_ne_symm]

/-- On the data lines alone two words are compared there. -/
theorem Config.and_dataMask_eq (hx : ∀ i ∈ c.dataPins, x.getLsbD i = y.getLsbD i)
    (hy : ∀ i, i ∉ c.dataPins → y.getLsbD i = false) : x &&& c.dataMask = y :=
  c.word_ext fun i => by
    rw [BitVec.getLsbD_and, c.dataMask_bit]
    by_cases hi : i ∈ c.dataPins
    · simp [hi, hx i hi]
    · simp [hi, hy i hi]

theorem Config.and_dataMask_congr (h : ∀ i ∈ c.dataPins, x.getLsbD i = y.getLsbD i) :
    x &&& c.dataMask = y &&& c.dataMask :=
  c.and_dataMask_eq (fun i hi => by simp [h i hi, c.dataMask_bit, hi]) fun i hi => by simp [c.dataMask_bit, hi]

/-- An unowned line is none of the thirteen. -/
theorem Config.unowned_ne {i : Nat} (hi : i ∉ c.ownedPins) :
    i ∉ c.dataPins ∧ i ≠ c.clkPin ∧ i ≠ c.latPin ∧ i ≠ c.oePin ∧ i ≠ c.a0Pin ∧ i ≠ c.a1Pin := by
  simpa [Params.ownedPins, Params.controlPins] using hi

/-- A data line is none of the five control lines. -/
theorem Config.dataPin_ne_control {i : Nat} (hi : i ∈ c.dataPins) :
    i ≠ c.clkPin ∧ i ≠ c.latPin ∧ i ≠ c.oePin ∧ i ≠ c.a0Pin ∧ i ≠ c.a1Pin := by
  refine ⟨?_, ?_, ?_, ?_, ?_⟩ <;> exact c.dataPin_ne hi (by simp [Params.controlPins])

end lines

end Sys2Proof

namespace Sys2Proof.Machine

/-! ### The clock -/

theorem risingEdges_eq_nil {W x : Nat} (before : PortWord W) {ws : List (PortWord W)}
    (h : ∀ w ∈ ws, w.getLsbD x = false) : risingEdges x before ws = [] := by
  induction ws generalizing before with
  | nil => rfl
  | cons w ws ih =>
    obtain ⟨hw, hws⟩ := List.forall_mem_cons.1 h
    simp [risingEdges, hw, ih w hws]

section words
variable (c : Config) (port : PortWord c.width)

/-- Streaming raises the clock once per byte, in its second word (R148). -/
theorem risingEdges_streamWords {base : PortWord c.width} (hbase : base.getLsbD c.clkPin = false) (vs : List Byte)
    {rest : List (PortWord c.width)} (hrest : ∀ w ∈ rest, w.getLsbD c.clkPin = false) :
    risingEdges c.clkPin port (streamWords c base vs ++ rest) =
      vs.map (fun v => (base ||| c.tableWord v, base ||| c.tableWord v ||| c.clk)) := by
  induction vs generalizing port with
  | nil => exact risingEdges_eq_nil port hrest
  | cons v vs ih =>
    have hlow : (base ||| c.tableWord v).getLsbD c.clkPin = false := by
      simp [hbase, c.tableWord_off v c.control_not_data.1]
    have hhigh : (base ||| c.tableWord v ||| c.clk).getLsbD c.clkPin = true := by simp [c.clk_bit]
    calc risingEdges c.clkPin port (streamWords c base (v :: vs) ++ rest)
      _ = (base ||| c.tableWord v, base ||| c.tableWord v ||| c.clk) ::
          risingEdges c.clkPin (base ||| c.tableWord v ||| c.clk) (streamWords c base vs ++ rest) := by
        simp only [streamWords, List.flatMap_cons, List.cons_append, List.nil_append, risingEdges, hlow, hhigh]
        simp
      _ = _ := by rw [ih, List.map_cons]

/-- No word after the last byte has the clock high (R149). -/
theorem closingWords_clk_low (b : Nat) {last : PortWord c.width} (hlast : last.getLsbD c.clkPin = false) :
    ∀ w ∈ closingWords c b last, w.getLsbD c.clkPin = false := by
  simp [-BitVec.getLsbD_and, closingWords, getLsbD_andNot, hlast, c.addr_bit, c.lat_bit, c.controlPins_ne]

theorem sampledBase_clk_low : (sampledBase c port).getLsbD c.clkPin = false := by
  simp [sampledBase_bit]

theorem risingEdges_transitionWords (b : Nat) (vs : List Byte) :
    risingEdges c.clkPin port (transitionWords c port b vs) =
      vs.map (fun v => (sampledBase c (port ||| c.oe) ||| c.tableWord v,
        sampledBase c (port ||| c.oe) ||| c.tableWord v ||| c.clk)) := by
  have hfirst : (port ||| c.oe).getLsbD c.clkPin = port.getLsbD c.clkPin := by simp [c.oe_bit, c.controlPins_ne]
  rw [transitionWords, risingEdges, hfirst, Bool.not_and_self, if_neg Bool.false_ne_true]
  exact risingEdges_streamWords c _ (sampledBase_clk_low c _) vs
    (closingWords_clk_low c b (streamed_clk_low c _ (vs.getLastD 0#8)))

/-- A streamed word shows its byte on the data lines, since the base has them low (R147). -/
theorem streamed_and_dataMask (v : Byte) : (sampledBase c port ||| c.tableWord v) &&& c.dataMask = c.tableWord v :=
  c.and_dataMask_eq (fun i hi => by simp [sampledBase_bit, hi]) fun _ => c.tableWord_off v

theorem or_clk_and_dataMask (w : PortWord c.width) : (w ||| c.clk) &&& c.dataMask = w &&& c.dataMask :=
  c.and_dataMask_congr fun i hi => by simp [c.clk_bit, c.dataPin_ne_control hi]

theorem or_clk_andNot_clk (w : PortWord c.width) : (w ||| c.clk) &&& ~~~c.clk = w &&& ~~~c.clk :=
  c.word_ext fun i => by
    simp only [getLsbD_andNot, BitVec.getLsbD_or]
    cases c.clk.getLsbD i <;> simp

end words

/-- Settles O22: the rising edges are the two words of each streamed byte, which differ in the clock alone. -/
theorem transitionClocksTheSlice : Obligations.TransitionClocksTheSlice := by
  intro c port b vs
  refine ⟨transitionWords_length c port b vs, ?_, ?_⟩ <;> rw [risingEdges_transitionWords]
  · simp only [List.map_map, Function.comp_def, or_clk_and_dataMask, streamed_and_dataMask]
  · simp only [List.forall_mem_map, or_clk_andNot_clk, implies_true]

/-! ### Outputs, address and unowned lines -/

/-- The word `w` has output-enable at the level `oe`, the address lines as in `address` and the unowned bits of `port`. -/
structure ShowsBank (c : Config) (port : PortWord c.width) (oe : Bool) (address w : PortWord c.width) : Prop where
  oe : w.getLsbD c.oePin = oe
  addr : w &&& c.addrMask = address
  unowned : ∀ i, i ∉ c.ownedPins → w.getLsbD i = port.getLsbD i

section shows
variable {c : Config} {port address w : PortWord c.width} {oe : Bool}

/-- The clock, the latch and the data lines play no part. -/
theorem ShowsBank.congr (h : ShowsBank c port oe address w) {x : PortWord c.width}
    (hx : ∀ i, i ≠ c.clkPin → i ≠ c.latPin → i ∉ c.dataPins → x.getLsbD i = w.getLsbD i) :
    ShowsBank c port oe address x := by
  obtain ⟨dclk, dlat, doe, da0, da1⟩ := c.control_not_data
  obtain ⟨-, hoeclk, ha0clk, ha1clk, hoelat, ha0lat, ha1lat, -⟩ := c.controlPins_ne_symm
  refine ⟨(hx _ hoeclk hoelat doe).trans h.oe, ?_, fun i hi => ?_⟩
  · exact (c.and_addrMask_eq_iff.2 ⟨hx _ ha0clk ha0lat da0, hx _ ha1clk ha1lat da1⟩).trans h.addr
  · obtain ⟨hdata, hclk, hlat, -⟩ := c.unowned_ne hi
    exact (hx i hclk hlat hdata).trans (h.unowned i hi)

theorem ShowsBank.or_lat (h : ShowsBank c port oe address w) : ShowsBank c port oe address (w ||| c.lat) :=
  h.congr fun i _ hlat _ => by simp [c.lat_bit, hlat]

theorem ShowsBank.andNot_lat (h : ShowsBank c port oe address w) : ShowsBank c port oe address (w &&& ~~~c.lat) :=
  h.congr fun i _ hlat _ => by simp [-BitVec.getLsbD_and, getLsbD_andNot, c.lat_bit, hlat]

theorem ShowsBank.or_clk (h : ShowsBank c port oe address w) : ShowsBank c port oe address (w ||| c.clk) :=
  h.congr fun i hclk _ _ => by simp [c.clk_bit, hclk]

theorem ShowsBank.or_tableWord (h : ShowsBank c port oe address w) (v : Byte) :
    ShowsBank c port oe address (w ||| c.tableWord v) :=
  h.congr fun i _ _ hdata => by simp [c.tableWord_off v hdata]

theorem ShowsBank.sampledBase (h : ShowsBank c port oe address w) : ShowsBank c port oe address (sampledBase c w) :=
  h.congr fun i hclk _ hdata => by simp [sampledBase_bit, hclk, hdata]

theorem ShowsBank.or_oe (port : PortWord c.width) : ShowsBank c port true (port &&& c.addrMask) (port ||| c.oe) := by
  refine ⟨by simp [c.oe_bit], c.and_addrMask_eq_iff.2 ?_, fun i hi => by simp [c.masks_unowned hi]⟩
  simp [c.oe_bit, c.controlPins_ne_symm]

/-- The full-word write of the new bank's address (R150). -/
theorem ShowsBank.selectBank (h : ShowsBank c port oe address w) (b : Nat) :
    ShowsBank c port oe (c.addr b) ((w &&& ~~~c.addrMask) ||| c.addr b) := by
  refine ⟨?_, c.and_addrMask_eq_addr_iff.2 ⟨?_, ?_⟩, fun i hi => ?_⟩
  · simp [-BitVec.getLsbD_and, getLsbD_andNot, c.addrMask_bit, c.addr_bit, c.controlPins_ne, h.oe]
  · simp [-BitVec.getLsbD_and, getLsbD_andNot, c.addrMask_bit, c.addr_bit, c.controlPins_ne]
  · simp [-BitVec.getLsbD_and, getLsbD_andNot, c.addrMask_bit, c.addr_bit, c.controlPins_ne_symm]
  · simp [-BitVec.getLsbD_and, getLsbD_andNot, c.masks_unowned hi, h.unowned i hi]

theorem ShowsBank.andNot_oe (h : ShowsBank c port oe address w) : ShowsBank c port false address (w &&& ~~~c.oe) := by
  refine ⟨?_, (c.and_addrMask_eq_iff.2 ?_).trans h.addr, fun i hi => ?_⟩
  · simp [-BitVec.getLsbD_and, getLsbD_andNot, c.oe_bit]
  · simp [-BitVec.getLsbD_and, getLsbD_andNot, c.oe_bit, c.controlPins_ne_symm]
  · simp [-BitVec.getLsbD_and, getLsbD_andNot, c.masks_unowned hi, h.unowned i hi]

end shows

/-! ### Word by word -/

section words
variable (c : Config) (port : PortWord c.width) (b : Nat) (vs : List Byte)


/-- The first word, a word of a byte, or a closing word; each with its place. -/
theorem transitionWords_getElem?_cases {j : Nat} {w : PortWord c.width} (h : (transitionWords c port b vs)[j]? = some w) :
    (j = 0 ∧ w = port ||| c.oe) ∨
    (0 < j ∧ j ≤ 2 * vs.length ∧ ∃ v, w = sampledBase c (port ||| c.oe) ||| c.tableWord v ∨
      w = sampledBase c (port ||| c.oe) ||| c.tableWord v ||| c.clk) ∨
    ∃ k, j = 2 * vs.length + 1 + k ∧
      (closingWords c b (sampledBase c (port ||| c.oe) ||| c.tableWord (vs.getLastD 0#8)))[k]? = some w := by

  cases j with
  | zero => exact .inl ⟨rfl, by simpa [transitionWords, eq_comm] using h⟩
  | succ j =>
    rw [transitionWords, List.getElem?_cons_succ, List.getElem?_append, streamWords_length] at h
    split at h
    · next hj =>
      obtain ⟨v, -, hv⟩ := List.mem_flatMap.1 (List.mem_of_getElem? h)
      exact .inr (.inl ⟨j.succ_pos, hj, v, by simpa using hv⟩)
    · next hj => exact .inr (.inr ⟨j - 2 * vs.length, by omega, h⟩)

theorem closingWords_getElem?_cases {last w : PortWord c.width} {k : Nat} (h : (closingWords c b last)[k]? = some w) :
    (k = 0 ∧ w = last) ∨ (k = 1 ∧ w = (last &&& ~~~c.addrMask) ||| c.addr b) ∨
    (k = 2 ∧ w = (last &&& ~~~c.addrMask) ||| c.addr b ||| c.lat) ∨
    (k = 3 ∧ w = ((last &&& ~~~c.addrMask) ||| c.addr b) &&& ~~~c.lat) ∨
    (k = 4 ∧ w = ((last &&& ~~~c.addrMask) ||| c.addr b) &&& ~~~c.lat &&& ~~~c.oe) := by
  have hk : k < 5 := (List.getElem?_eq_some_iff.1 h).1
  interval_cases k <;> simpa [closingWords, eq_comm] using h

end words

section levels
variable {c : Config} {port : PortWord c.width} {b : Nat} {vs : List Byte} {j : Nat} {w : PortWord c.width}

theorem streamed_showsBank (c : Config) (port : PortWord c.width) (v : Byte) :
    ShowsBank c port true (port &&& c.addrMask) (sampledBase c (port ||| c.oe) ||| c.tableWord v) :=
  (ShowsBank.or_oe port).sampledBase.or_tableWord v

/-- The outputs are on in the last word only, and the address is the new bank's from the second closing word on. -/
theorem transitionWords_showsBank (h : (transitionWords c port b vs)[j]? = some w) :
    ShowsBank c port (decide (j + 1 < 2 * vs.length + 6))
      (if j ≤ 2 * vs.length + 1 then port &&& c.addrMask else c.addr b) w := by
  have hselected := (streamed_showsBank c port (vs.getLastD 0#8)).selectBank b
  obtain ⟨rfl, rfl⟩ | ⟨hpos, hj, v, rfl | rfl⟩ | ⟨k, rfl, hk⟩ := transitionWords_getElem?_cases c port b vs h
  · simpa using ShowsBank.or_oe port
  · rw [decide_eq_true (by omega), if_pos (by omega)]
    exact streamed_showsBank c port v
  · rw [decide_eq_true (by omega), if_pos (by omega)]
    exact (streamed_showsBank c port v).or_clk
  · obtain ⟨rfl, rfl⟩ | ⟨rfl, rfl⟩ | ⟨rfl, rfl⟩ | ⟨rfl, rfl⟩ | ⟨rfl, rfl⟩ := closingWords_getElem?_cases c b hk
    · simpa using streamed_showsBank c port (vs.getLastD 0#8)
    · simpa using hselected
    · simpa using hselected.or_lat
    · simpa using hselected.andNot_lat
    · simpa using hselected.andNot_lat.andNot_oe

theorem streamed_lat (c : Config) (port : PortWord c.width) (v : Byte) :
    (sampledBase c (port ||| c.oe) ||| c.tableWord v).getLsbD c.latPin = port.getLsbD c.latPin := by
  simp [sampledBase_lat, c.oe_bit, c.controlPins_ne, c.tableWord_off v c.control_not_data.2.1]

/-- The one latch pulse (R151). -/
theorem closingWords_lat {last : PortWord c.width} (hlast : last.getLsbD c.latPin = false)
    (h : (closingWords c b last)[j]? = some w) : w.getLsbD c.latPin = decide (j = 2) := by
  obtain ⟨rfl, rfl⟩ | ⟨rfl, rfl⟩ | ⟨rfl, rfl⟩ | ⟨rfl, rfl⟩ | ⟨rfl, rfl⟩ := closingWords_getElem?_cases c b h <;>
    simp [-BitVec.getLsbD_and, getLsbD_andNot, hlast, c.addr_bit, c.lat_bit, c.controlPins_ne]

theorem transitionWords_lat (hlat : port.getLsbD c.latPin = false) (h : (transitionWords c port b vs)[j]? = some w) :
    w.getLsbD c.latPin = decide (j = 2 * vs.length + 3) := by
  have hlast := (streamed_lat c port (vs.getLastD 0#8)).trans hlat
  obtain ⟨rfl, rfl⟩ | ⟨hpos, hj, v, rfl | rfl⟩ | ⟨k, rfl, hk⟩ := transitionWords_getElem?_cases c port b vs h
  · simp [hlat, c.oe_bit, c.controlPins_ne]
  · rw [streamed_lat, hlat, decide_eq_false (by omega)]
  · rw [or_clk_lat, streamed_lat, hlat, decide_eq_false (by omega)]
  · rw [closingWords_lat hlast hk]
    exact decide_eq_decide.2 (by omega)

theorem transitionWords_clk_low (hj : 2 * vs.length < j) (h : (transitionWords c port b vs)[j]? = some w) :
    w.getLsbD c.clkPin = false := by
  obtain ⟨rfl, -⟩ | ⟨-, hle, -⟩ | ⟨k, -, hk⟩ := transitionWords_getElem?_cases c port b vs h
  · omega
  · omega
  · exact closingWords_clk_low c b (streamed_clk_low c _ _) w (List.mem_of_getElem? hk)

end levels

/-- Settles O23: the levels of the word at each place, case by case of where it comes from. -/
theorem transitionLatchesOnceInTheDark : Obligations.TransitionLatchesOnceInTheDark := by
  intro c port b vs _ hlat j w h
  have hshows := transitionWords_showsBank h
  refine ⟨hshows.oe, transitionWords_lat hlat h, fun hj => transitionWords_clk_low hj h, fun hj => ?_, fun hj => ?_,
    hshows.unowned⟩
  · rw [hshows.addr, if_pos hj]
  · rw [hshows.addr, if_neg (by omega)]

/-! ### What stays on the pins (R157) -/

theorem and_oe_lat_clk_eq_zero (c : Config) {w : PortWord c.width} (hoe : w.getLsbD c.oePin = false)
    (hlat : w.getLsbD c.latPin = false) (hclk : w.getLsbD c.clkPin = false) :
    w &&& (c.oe ||| c.lat ||| c.clk) = 0#_ := by
  rw [BitVec.and_or_distrib_left, BitVec.and_or_distrib_left, (c.and_oe_eq_zero_iff w).2 hoe,
    (c.and_lat_eq_zero_iff w).2 hlat, (c.and_clk_eq_zero_iff w).2 hclk, BitVec.or_zero, BitVec.or_zero]

/-- The closing words leave the data lines alone. -/
theorem closed_and_dataMask (c : Config) (w : PortWord c.width) (b : Nat) :
    (((w &&& ~~~c.addrMask) ||| c.addr b) &&& ~~~c.lat &&& ~~~c.oe) &&& c.dataMask = w &&& c.dataMask :=
  c.and_dataMask_congr fun i hi => by
    simp [-BitVec.getLsbD_and, getLsbD_andNot, c.addrMask_bit, c.addr_bit, c.lat_bit, c.oe_bit, c.dataPin_ne_control hi]

/-- Settles O24: the port is the last closing word, line by line. -/
theorem transitionLeavesTheLastByteLit : Obligations.TransitionLeavesTheLastByteLit := by
  intro s hinterleave hN hphase htimer hcount
  obtain ⟨p, htransition, -, -, hport⟩ := transition_spec s hinterleave hN
  have hlast : s.nextSlice.getLastD 0#8 = s.fb.read (sbase s.P s.B s.N s.nextPlane s.nextBank + (s.N - 1)) := by
    rw [State.nextSlice, sliceBytes_eq, bytesFrom_getLastD _ _ _ hN]
  have hshows : ShowsBank s.cfg s.pins.port false (s.cfg.addr s.nextBank) p.port := by
    rw [hport]
    exact ((streamed_showsBank s.cfg s.pins.port _).selectBank s.nextBank).andNot_lat.andNot_oe
  have hlat : p.port.getLsbD s.cfg.latPin = false := by
    rw [hport]
    simp [-BitVec.getLsbD_and, getLsbD_andNot, s.cfg.lat_bit]
  have hclk : p.port.getLsbD s.cfg.clkPin = false := by
    rw [hport]
    exact closingWords_clk_low s.cfg s.nextBank (streamed_clk_low s.cfg _ _) _ (List.mem_of_getElem? (i := 4) rfl)

  refine ⟨p, ?_, ?_, hshows.addr, and_oe_lat_clk_eq_zero s.cfg hshows.oe hlat hclk, hshows.unowned⟩
  · rw [exec_tick_of_dwell_le hphase htimer hcount, htransition]
    rfl
  · rw [hport, closed_and_dataMask, streamed_and_dataMask, hlast]



end Sys2Proof.Machine


/-! A bank's control write, and what SETBRT leaves on the pins (spec/43_brightness.md R181 to R183). -/

namespace Sys2Proof.Machine

section bank
variable (c : Config) (port : PortWord c.width) (cw : ControlWord) (b : Nat)

theorem controlBankWords_length : (controlBankWords c port cw b).length = 48 * c.chips + 2 := by
  have hlevels := congrArg List.length (controlBankWords_lat c port cw b)
  have hchips := c.chips_pos
  simp only [List.length_map, List.length_append, List.length_replicate, List.length_singleton] at hlevels
  omega

theorem bankSetup_showsBank : ShowsBank c port true (c.addr b) (bankSetup c port b) := by
  refine ⟨by simp [bankSetup_bit], c.and_addrMask_eq_addr_iff.2 ⟨?_, ?_⟩, fun i hi => ?_⟩
  · simp [bankSetup_bit, c.controlPins_ne, c.controlPins_ne_symm, Params.ownedPins, Params.controlPins]
  · simp [bankSetup_bit, c.controlPins_ne_symm, Params.ownedPins, Params.controlPins]
  · simp [bankSetup_bit, c.unowned_ne hi, hi]

theorem ShowsBank.or_controlData {c : Config} {port address w : PortWord c.width} {oe : Bool}
    (h : ShowsBank c port oe address w) (cw : ControlWord) (j : Nat) :
    ShowsBank c port oe address (w ||| controlData c cw j) :=
  h.congr fun i _ _ hdata => by simp [controlData_bit, hdata]

theorem controlStepWord_showsBank (chip j : Nat) :
    ShowsBank c port true (c.addr b) (controlStepWord c (bankSetup c port b) cw chip j) :=
  ((bankSetup_showsBank c port b).or_controlData cw j).congr fun i _ hlat _ => by
    simp [controlStepWord, controlLatch_bit, hlat]

/-- The words between the set-up word and the last one are step words, with the clock low or high. -/
theorem controlBankWords_showsBank :
    ∀ w ∈ controlBankWords c port cw b, ShowsBank c port true (c.addr b) w := by
  have hsteps : ∀ w ∈ controlStepWords c (bankSetup c port b) cw, ShowsBank c port true (c.addr b) w := by
    simp only [controlStepWords, List.mem_flatMap, List.mem_map]
    rintro w ⟨chip, -, j, -, rfl⟩
    exact controlStepWord_showsBank c port cw b chip j
  rw [controlBankWords_eq_clocked]
  simp only [List.forall_mem_cons, List.forall_mem_append, List.forall_mem_flatMap, clockedOnce, List.not_mem_nil,
    IsEmpty.forall_iff, implies_true, and_true]
  exact ⟨bankSetup_showsBank c port b, fun w hw => ⟨hsteps w hw, (hsteps w hw).or_clk, hsteps w hw⟩,
    (bankSetup_showsBank c port b).or_controlData cw 15⟩

/-- The set-up word has the data lines low (R177). -/
theorem bankSetup_data_low {i : Nat} (hi : i ∈ c.dataPins) : (bankSetup c port b).getLsbD i = false := by
  simp [bankSetup_bit, c.dataPin_ne_control hi, Params.ownedPins, hi]

theorem bankSetup_or_controlData_and_dataMask (j : Nat) :
    (bankSetup c port b ||| controlData c cw j) &&& c.dataMask = controlData c cw j :=
  c.and_dataMask_eq (fun i hi => by simp [bankSetup_data_low c port b hi]) fun i hi => by simp [controlData_bit, hi]

/-- Step `j` shows `cw[15-j]` on all eight data lines (R178). -/
theorem controlStepWord_and_dataMask (chip j : Nat) :
    controlStepWord c (bankSetup c port b) cw chip j &&& c.dataMask = controlData c cw j :=
  (c.and_dataMask_congr fun i hi => by simp [controlStepWord, controlLatch_bit, c.dataPin_ne_control hi]).trans
    (bankSetup_or_controlData_and_dataMask c port cw b j)

end bank

/-- Settles O36: every word from the set-up word on, and the rising edges as the clocked step words. -/
theorem bankWriteClocksEveryChip : Obligations.BankWriteClocksEveryChip := by
  intro c port cw b
  refine ⟨controlBankWords_length c port cw b, fun w hw => ?_, ?_⟩
  · have hshows := controlBankWords_showsBank c port cw b w hw
    exact ⟨hshows.oe, hshows.addr, hshows.unowned⟩
  · rw [risingEdges_clk_controlBankWords, controlStepWords]
    simp only [List.map_flatMap, List.map_map, Function.comp_def, or_clk_and_dataMask, controlStepWord_and_dataMask]
    refine List.flatMap_congr fun _ _ => List.map_congr_left fun j _ => ?_
    unfold controlData
    split <;> rfl

theorem controlWords_length (c : Config) (port : PortWord c.width) (cw : ControlWord) (B : Nat) :
    (controlWords c port cw B).length = B * (48 * c.chips + 2) := by
  simp [controlWords, List.length_flatMap, controlBankWords_length]

/-- Settles O38: the port is the last bank's set-up word with `cw[0]` on the data lines. -/
theorem setbrtLeavesTheOutputsOff : Obligations.SetbrtLeavesTheOutputsOff := by
  intro s pct hready hB
  obtain ⟨-, hemitted, -, hport⟩ := writeControl_spec s.cfg (controlWord s.cfg.cwPrefix pct) s.B s.pins
  have hsettled := writeControl_settles s.cfg (controlWord s.cfg.cwPrefix pct) hB s.pins
  have hshows : ShowsBank s.cfg s.pins.port true (s.cfg.addr (s.B - 1))
      (writeControl s.cfg (controlWord s.cfg.cwPrefix pct) s.B s.pins).port := by
    rw [hport hB]
    exact (bankSetup_showsBank s.cfg s.pins.port (s.B - 1)).or_controlData _ 15
  refine ⟨_, exec_setbrt_of_ready pct hready, (s.cfg.and_oe_eq_oe_iff _).2 hshows.oe, ?_, hshows.addr, ?_,
    hshows.unowned, ?_⟩
  · rw [BitVec.and_or_distrib_left, (s.cfg.and_lat_eq_zero_iff _).2 hsettled.latLow,
      (s.cfg.and_clk_eq_zero_iff _).2 hsettled.clkLow, BitVec.or_zero]
  · rw [hport hB, bankSetup_or_controlData_and_dataMask]
    rfl
  · rw [hemitted, List.length_append, List.length_reverse, controlWords_length, Nat.add_comm]

end Sys2Proof.Machine

/-! Noninterference (spec/42_refresh_scheduler.md R160): the port sequences of a transition, run with two bytes or two
buffers, agree on every line but the data lines. -/

namespace Sys2Proof.Machine

/-- `x` and `y` agree on every line but the data lines. -/
def EqOffData (c : Config) (x y : PortWord c.width) : Prop := x &&& ~~~c.dataMask = y &&& ~~~c.dataMask

section agree
variable {c : Config} {x y : PortWord c.width}

theorem eqOffData_iff : EqOffData c x y ↔ ∀ i, i ∉ c.dataPins → x.getLsbD i = y.getLsbD i := by
  refine ⟨fun h i hi => ?_, fun h => c.word_ext fun i => ?_⟩
  · simpa [-BitVec.getLsbD_and, getLsbD_andNot, c.dataMask_bit, hi] using congrArg (·.getLsbD i) h
  · rw [getLsbD_andNot, getLsbD_andNot, c.dataMask_bit]
    by_cases hi : i ∈ c.dataPins
    · simp [hi]
    · rw [h i hi]

theorem EqOffData.or (h : EqOffData c x y) (m : PortWord c.width) : EqOffData c (x ||| m) (y ||| m) :=
  eqOffData_iff.2 fun i hi => by rw [BitVec.getLsbD_or, BitVec.getLsbD_or, eqOffData_iff.1 h i hi]

theorem EqOffData.andNot (h : EqOffData c x y) (m : PortWord c.width) :
    EqOffData c (x &&& ~~~m) (y &&& ~~~m) :=
  eqOffData_iff.2 fun i hi => by rw [getLsbD_andNot, getLsbD_andNot, eqOffData_iff.1 h i hi]

/-- A table word is on the data lines alone. -/
theorem eqOffData_tableWord (base : PortWord c.width) (u v : Byte) :
    EqOffData c (base ||| c.tableWord u) (base ||| c.tableWord v) :=
  eqOffData_iff.2 fun i hi => by simp [c.tableWord_off _ hi]

end agree

/-- Pins whose port and whose trace agree, word by word, on every line but the data lines. -/
structure Pins.AgreeOffData (c : Config) (p q : Pins c.width) : Prop where
  port : EqOffData c p.port q.port
  emitted : p.emitted.map (fun w => w &&& ~~~c.dataMask) = q.emitted.map (fun w => w &&& ~~~c.dataMask)

section pinsAgree
variable {c : Config} {p q : Pins c.width}

theorem Pins.AgreeOffData.refl (p : Pins c.width) : p.AgreeOffData c p := ⟨rfl, rfl⟩

theorem Pins.AgreeOffData.portWrite (h : p.AgreeOffData c q) {x y : PortWord c.width} (hxy : EqOffData c x y) :
    (p.portWrite x).AgreeOffData c (q.portWrite y) :=
  ⟨hxy, congrArg₂ List.cons hxy h.emitted⟩

theorem Pins.AgreeOffData.portSet (h : p.AgreeOffData c q) (m : PortWord c.width) :
    (p.portSet m).AgreeOffData c (q.portSet m) :=
  h.portWrite (h.port.or m)

theorem Pins.AgreeOffData.portClear (h : p.AgreeOffData c q) (m : PortWord c.width) :
    (p.portClear m).AgreeOffData c (q.portClear m) :=
  h.portWrite (h.port.andNot m)

theorem Pins.AgreeOffData.streamByte (h : p.AgreeOffData c q) (base : PortWord c.width) (u v : Byte) :
    (streamByte c base u p).AgreeOffData c (streamByte c base v q) :=
  (h.portWrite (eqOffData_tableWord base u v)).portSet c.clk

theorem Pins.AgreeOffData.streamSlice (h : p.AgreeOffData c q) (base : PortWord c.width) (fb fb' : Memory) (sb n : Nat) :
    (streamSlice c base fb sb n p).AgreeOffData c (streamSlice c base fb' sb n q) := by
  induction n with
  | zero => exact h
  | succ n ih => exact ih.streamByte base _ _

theorem Pins.AgreeOffData.finishTransition (h : p.AgreeOffData c q) (b : Nat) :
    (finishTransition c b p).AgreeOffData c (finishTransition c b q) := by
  have hlow := h.portClear c.clk
  exact (((hlow.portWrite ((hlow.port.andNot c.addrMask).or (c.addr b))).portSet c.lat).portClear c.lat).portClear c.oe

end pinsAgree

/-- A transition in one step, with the pins written out. -/
theorem transition_of_not_interleaved {s : State} (h : s.cfg.fbInterleave = false) :
    transition s =
      { s with
        bank := s.nextBank, plane := s.nextPlane, subcount := 0#8,
        pins := finishTransition s.cfg s.nextBank (streamSlice s.cfg (sampledBase s.cfg (s.pins.port ||| s.cfg.oe)) s.fb
          (sbase s.P s.B s.N s.nextPlane s.nextBank) s.N (s.pins.portSet s.cfg.oe)) } := by
  rw [transition, h]
  rfl

/-- The TICK of an interleaved transition, which reads no byte. -/
theorem transition_of_interleaved {s : State} (h : s.cfg.fbInterleave = true) :
    transition s =
      { s with
        bank := s.nextBank, plane := s.nextPlane, subcount := 0#8, pins := s.pins.portSet s.cfg.oe,
        streaming := some ⟨sbase s.P s.B s.N s.nextPlane s.nextBank, sampledBase s.cfg (s.pins.port ||| s.cfg.oe),
          0⟩ } := by

  rw [transition, h]
  rfl

/-- Settles O30: the branch is taken by the count, and the two transitions' pins agree primitive by primitive. -/
theorem controlLinesDoNotDependOnTheBuffer : Obligations.ControlLinesDoNotDependOnTheBuffer := by
  intro s fb hinterleave hphase htimer _
  by_cases hcount : (s.subcount + 1#8).toNat < dwell s.P s.plane
  · exact ⟨s.bank, s.plane, s.subcount + 1#8, s.pins, s.pins, exec_tick_of_lt_dwell hphase htimer hcount,
      exec_tick_of_lt_dwell (s := { s with fb := fb }) hphase htimer hcount, rfl⟩
  · have hcount := Nat.le_of_not_lt hcount
    have hpins := (((Pins.AgreeOffData.refl s.pins).portSet s.cfg.oe).streamSlice
      (sampledBase s.cfg (s.pins.port ||| s.cfg.oe)) s.fb fb (sbase s.P s.B s.N s.nextPlane s.nextBank)
      s.N).finishTransition s.nextBank
    exact ⟨s.nextBank, s.nextPlane, 0#8, _, _,
      (exec_tick_of_dwell_le hphase htimer hcount).trans (congrArg _ (transition_of_not_interleaved hinterleave)),
      (exec_tick_of_dwell_le (s := { s with fb := fb }) hphase htimer hcount).trans
        (congrArg _ (transition_of_not_interleaved (s := { s with fb := fb }) hinterleave)), hpins.emitted⟩

/-- Settles O57: the TICK reads no byte, and the pins of a read agree primitive by primitive. -/
theorem interleavedControlLinesDoNotDependOnTheBuffer : Obligations.InterleavedControlLinesDoNotDependOnTheBuffer := by
  intro s fb hinterleave
  refine ⟨fun hphase htimer => ?_, fun rest hstreaming hnext => ?_⟩
  · by_cases hcount : (s.subcount + 1#8).toNat < dwell s.P s.plane
    · exact ⟨s.bank, s.plane, s.subcount + 1#8, s.pins, s.streaming, exec_tick_of_lt_dwell hphase htimer hcount,
        exec_tick_of_lt_dwell (s := { s with fb := fb }) hphase htimer hcount⟩
    · have hcount := Nat.le_of_not_lt hcount
      exact ⟨s.nextBank, s.nextPlane, 0#8, _, _,
        (exec_tick_of_dwell_le hphase htimer hcount).trans (congrArg _ (transition_of_interleaved hinterleave)),
        (exec_tick_of_dwell_le (s := { s with fb := fb }) hphase htimer hcount).trans
          (congrArg _ (transition_of_interleaved (s := { s with fb := fb }) hinterleave))⟩
  · obtain ⟨r, hr⟩ := Option.isSome_iff_exists.1 hstreaming
    have hbyte := (Pins.AgreeOffData.refl s.pins).streamByte r.base (s.fb.read (r.sb + r.offset))
      (fb.read (r.sb + r.offset))
    by_cases hmore : r.offset + 1 < s.N
    · exact ⟨_, _, _, (step_nextRead hr hnext).trans (congrArg _ (readStep_of_more (s := s.popped rest) hmore)),
        (step_nextRead (s := { s with fb := fb }) hr hnext).trans
          (congrArg _ (readStep_of_more (s := State.popped { s with fb := fb } rest) hmore)), hbyte.emitted⟩
    · exact ⟨_, _, _, (step_nextRead hr hnext).trans (congrArg _ (readStep_of_last (s := s.popped rest) hmore)),
        (step_nextRead (s := { s with fb := fb }) hr hnext).trans
          (congrArg _ (readStep_of_last (s := State.popped { s with fb := fb } rest) hmore)),
        (hbyte.finishTransition s.bank).emitted⟩

end Sys2Proof.Machine

/-! An interleaved transition whose reads come one after another (spec/20_memory.md R58): after `j` reads the pins are
those of `j` turns of the loop that streams the slice in one step. -/

namespace Sys2Proof.Machine

/-- `s` in a transition of which `j` reads have been made and only its other reads are to come. -/
def State.afterReads (s : State) (sb : Nat) (base : PortWord s.cfg.width) (j : Nat) : State :=
  { s with
    pins := streamSlice s.cfg base s.fb sb j s.pins, streaming := some ⟨sb, base, j⟩,
    pending := List.replicate (s.N - j) .nextRead }

section reads
variable {s : State} {sb : Nat} {base : PortWord s.cfg.width} {j : Nat}

theorem afterReads_pending (h : j < s.N) :
    (s.afterReads sb base j).pending = .nextRead :: List.replicate (s.N - (j + 1)) .nextRead := by
  rw [← List.replicate_succ, show s.N - (j + 1) + 1 = s.N - j by omega]
  rfl

theorem step_afterReads (h : j + 1 < s.N) :
    step (s.afterReads sb base j) = .next (s.afterReads sb base (j + 1)) :=
  (step_nextRead rfl (afterReads_pending (Nat.lt_of_succ_lt h))).trans
    (congrArg _ (readStep_of_more (s := (s.afterReads sb base j).popped _) h))

theorem step_afterReads_last (h : j + 1 = s.N) : step (s.afterReads sb base j) =
    .next { s with
            pins := finishTransition s.cfg s.bank (streamSlice s.cfg base s.fb sb (j + 1) s.pins), streaming := none,
            pending := [] } := by
  have hread := (step_nextRead rfl (afterReads_pending (sb := sb) (base := base) (Nat.lt_of_succ_le h.le))).trans
    (congrArg _ (readStep_of_last (s := (s.afterReads sb base j).popped _) h.not_lt))
  have hrest : List.replicate (s.N - (j + 1)) Command.nextRead = [] := by rw [h, Nat.sub_self, List.replicate_zero]
  rw [hread, hrest]
  rfl

theorem run_afterReads {n : Nat} (h : j + (n + 1) = s.N) : Host.Core.run core (n + 1) (s.afterReads sb base j) =
    .next { s with
            pins := finishTransition s.cfg s.bank (streamSlice s.cfg base s.fb sb s.N s.pins), streaming := none,
            pending := [] } := by
  induction n generalizing j with
  | zero => rw [run_of_step (step_afterReads_last h), ← h]; rfl
  | succ n ih => rw [run_of_step (step_afterReads (by omega)), ih (by omega)]

theorem run_all_reads (hN : 0 < s.N) : Host.Core.run core s.N (s.afterReads sb base 0) =
    .next { s with
            pins := finishTransition s.cfg s.bank (streamSlice s.cfg base s.fb sb s.N s.pins), streaming := none,
            pending := [] } := by
  obtain ⟨n, hn⟩ := Nat.exists_eq_add_one.2 hN
  have hrun := run_afterReads (sb := sb) (base := base) (j := 0) (n := n) (by omega)
  rwa [← hn] at hrun


end reads

/-- The TICK of an interleaved transition with its reads, and nothing else, to come. -/
theorem transition_popped_of_interleaved {s : State} (h : s.cfg.fbInterleave = true) :
    transition (s.popped (List.replicate s.N .nextRead)) =
      { s with bank := s.nextBank, plane := s.nextPlane, subcount := 0#8,
               pins := s.pins.portSet s.cfg.oe : State }.afterReads (sbase s.P s.B s.N s.nextPlane s.nextBank)
        (sampledBase s.cfg (s.pins.port ||| s.cfg.oe)) 0 :=
  transition_of_interleaved (s := s.popped _) h

/-- Settles O29: the TICK, its `N` reads one by one, and the words of the loop and of the end of the transition. -/
theorem interleavedTransitionIsTheSameTransition : Obligations.InterleavedTransitionIsTheSameTransition := by
  intro s hinterleave hN hphase htimer hidle hcount hnext
  have htick := exec_tick_of_dwell_le (s := s.popped (List.replicate s.N .nextRead)) hphase htimer hcount
  rw [transition_popped_of_interleaved hinterleave] at htick
  obtain ⟨hdir, hemitted, -⟩ := stream_and_finish_spec s.cfg s.fb (sbase s.P s.B s.N s.nextPlane s.nextBank) s.N
    s.nextBank (s.pins.portSet s.cfg.oe) hN
  refine ⟨_, ?_, hdir, ?_, rfl⟩
  · rw [run_of_step ((step_op_of_idle hnext hidle).trans htick), hidle]
    exact run_all_reads (s := { s with bank := s.nextBank, plane := s.nextPlane, subcount := 0#8,
                                       pins := s.pins.portSet s.cfg.oe }) hN
  · rw [hemitted]
    simp [transitionWords, sliceBytes_eq]


end Sys2Proof.Machine

/-! The refresh schedule (spec/42_refresh_scheduler.md R145, R155, R156, R158): the list of cursors one refresh cycle passes
through, what can be counted on it, and that the block's ticks follow it. -/

namespace Sys2Proof.Machine

/-! ### One refresh cycle of the cursor (R145) -/

/-- The cursor passes through the list from `x` on, one tick after another, and is then at `y`. -/
def Visits (P B : Nat) : Nat × Nat × Nat → List (Nat × Nat × Nat) → Nat × Nat × Nat → Prop
  | x, [], y => x = y
  | x, a :: l, y => x = a ∧ Visits P B (cursorTick P B x) l y

section visits
variable {P B b d n : Nat} {x y z : Nat × Nat × Nat} {l m : List (Nat × Nat × Nat)}

theorem Visits.append (hl : Visits P B x l y) (hm : Visits P B y m z) : Visits P B x (l ++ m) z := by
  induction l generalizing x with
  | nil =>
    have hxy : x = y := hl
    rwa [hxy]
  | cons a l ih =>
    obtain ⟨ha, hl⟩ := hl
    exact ⟨ha, ih hl⟩

theorem Visits.snoc (h : Visits P B x l y) : Visits P B x (l ++ [y]) (cursorTick P B y) :=
  h.append ⟨rfl, rfl⟩

/-- On the schedule from `(0,0,0)` the list is the schedule's. -/
theorem Visits.cursorAfter_eq {k : Nat} (h : Visits P B (cursorAfter P B k) l y) :
    (List.range l.length).map (fun i => cursorAfter P B (k + i)) = l ∧ y = cursorAfter P B (k + l.length) := by
  induction l generalizing k with
  | nil => exact ⟨rfl, h.symm⟩
  | cons a l ih =>
    obtain ⟨rfl, hl⟩ := h
    obtain ⟨hmap, hend⟩ := ih (k := k + 1) hl
    have hshift : ∀ i, cursorAfter P B (k + 1 + i) = cursorAfter P B (k + (i + 1)) := fun i => by
      rw [Nat.add_right_comm, Nat.add_assoc]
    rw [List.length_cons, List.range_succ_eq_map, List.map_cons, List.map_map]
    exact ⟨congrArg _ ((List.map_congr_left fun i _ => (hshift i).symm).trans hmap), hend.trans (hshift l.length)⟩

/-- The cursors of the ticks in which bank `b` shows plane `d` (R143). -/
def pairVisits (P d b : Nat) : List (Nat × Nat × Nat) := (List.range (dwell P d)).map (fun n => (b, d, n))

/-- The cursors of one plane, banks ascending. -/
def planeVisits (P B d : Nat) : List (Nat × Nat × Nat) := (List.range B).flatMap (pairVisits P d)

/-- The cursors of one refresh cycle, planes ascending (R145). -/
def cycleVisits (P B : Nat) : List (Nat × Nat × Nat) := (List.range P).flatMap (planeVisits P B)

theorem cursorTick_of_lt (h : n + 1 < dwell P d) : cursorTick P B (b, d, n) = (b, d, n + 1) :=
  if_pos h

theorem cursorTick_of_le (h : dwell P d ≤ n + 1) :
    cursorTick P B (b, d, n) = ((nextPair P B b d).1, (nextPair P B b d).2, 0) :=
  if_neg (Nat.not_lt.2 h)

theorem visits_idle (hn : n < dwell P d) :
    Visits P B (b, d, 0) ((List.range n).map (fun n => (b, d, n))) (b, d, n) := by
  induction n with
  | zero => rfl
  | succ n ih =>
    have hsnoc := (ih (Nat.lt_of_succ_lt hn)).snoc
    rw [cursorTick_of_lt hn] at hsnoc
    rwa [List.range_succ, List.map_append, List.map_singleton]

theorem visits_pair : Visits P B (b, d, 0) (pairVisits P d b) ((nextPair P B b d).1, (nextPair P B b d).2, 0) := by
  obtain ⟨n, hn⟩ := Nat.exists_eq_add_one.2 (dwell_pos P d)
  have hsnoc := (visits_idle (B := B) (b := b) (hn ▸ n.lt_succ_self : n < dwell P d)).snoc
  rw [cursorTick_of_le hn.le] at hsnoc
  rwa [pairVisits, hn, List.range_succ, List.map_append, List.map_singleton]

theorem visits_banks (hn : n < B) : Visits P B (0, d, 0) ((List.range n).flatMap (pairVisits P d)) (n, d, 0) := by
  induction n with
  | zero => rfl
  | succ n ih =>
    have hpair := (ih (Nat.lt_of_succ_lt hn)).append visits_pair
    rw [nextPair_of_bank_lt hn] at hpair
    rwa [List.range_succ, List.flatMap_append, List.flatMap_singleton]

/-- After the last bank of a plane comes bank 0 of the pair R144 gives. -/
theorem visits_plane (hB : 0 < B) : Visits P B (0, d, 0) (planeVisits P B d)
    ((nextPair P B (B - 1) d).1, (nextPair P B (B - 1) d).2, 0) := by
  obtain ⟨n, rfl⟩ := Nat.exists_eq_add_one.2 hB
  rw [planeVisits, List.range_succ, List.flatMap_append, List.flatMap_singleton]
  exact (visits_banks n.lt_succ_self).append visits_pair

theorem visits_planes (hB : 0 < B) (hn : n < P) :
    Visits P B (0, 0, 0) ((List.range n).flatMap (planeVisits P B)) (0, n, 0) := by
  induction n with
  | zero => rfl
  | succ n ih =>
    have hplane := (ih (Nat.lt_of_succ_lt hn)).append (visits_plane hB)
    rw [nextPair_of_plane_lt (by omega) hn] at hplane
    rwa [List.range_succ, List.flatMap_append, List.flatMap_singleton]

theorem visits_cycle (hP : 0 < P) (hB : 0 < B) : Visits P B (0, 0, 0) (cycleVisits P B) (0, 0, 0) := by
  obtain ⟨n, rfl⟩ := Nat.exists_eq_add_one.2 hP
  have hplane := (visits_planes hB n.lt_succ_self).append (visits_plane hB)
  rw [nextPair_of_plane_le (by omega) le_rfl] at hplane
  rwa [cycleVisits, List.range_succ, List.flatMap_append, List.flatMap_singleton]

end visits

/-! ### Counting over a cycle -/

section count
variable (P B : Nat) (q : Nat → Nat → Bool)

theorem sum_map_range (f : Nat → Nat) (n : Nat) : ((List.range n).map f).sum = ∑ i ∈ Finset.range n, f i := rfl

/-- The ticks of a cycle whose bank and plane satisfy `q`: each pair counts with its dwell. -/
theorem countP_cycleVisits : (cycleVisits P B).countP (fun x => q x.1 x.2.1) =
    ∑ d ∈ Finset.range P, ∑ b ∈ Finset.range B, if q b d then dwell P d else 0 := by
  have hpair : ∀ d b, (pairVisits P d b).countP (fun x => q x.1 x.2.1) = if q b d then dwell P d else 0 := by
    intro d b
    rw [pairVisits, List.countP_map]
    cases h : q b d <;> simp [Function.comp_def, h]
  simp only [cycleVisits, planeVisits, List.countP_flatMap, Function.comp_def, hpair, sum_map_range]

/-- The dwells of the planes are the powers of two below `2^P`, the deepest plane last (R143). -/
theorem sum_dwell (f : Nat → Nat → Nat) : ∑ d ∈ Finset.range P, f (P - 1 - d) (dwell P d) =
    ∑ i ∈ Finset.range P, f i (2 ^ i) :=
  Finset.sum_range_reflect (fun i => f i (2 ^ i)) P

theorem cycleVisits_length : (cycleVisits P B).length = cycleTicks P B := by
  have hcount := countP_cycleVisits P B (fun _ _ => true)
  have hgeom : ∑ i ∈ Finset.range P, 2 ^ i = 2 ^ P - 1 := by simpa using Nat.geomSum_eq le_rfl P
  have hpowers := (sum_dwell P (fun _ n => n)).trans hgeom
  simpa [List.countP_true, ← Finset.mul_sum, hpowers, cycleTicks] using hcount

end count

theorem cursorAfter_cycle {P B : Nat} (hP : 0 < P) (hB : 0 < B) :
    (List.range (cycleTicks P B)).map (cursorAfter P B) = cycleVisits P B ∧
    cursorAfter P B (cycleTicks P B) = (0, 0, 0) := by
  obtain ⟨hmap, hend⟩ := Visits.cursorAfter_eq (k := 0) (visits_cycle hP hB)

  simp only [Nat.zero_add, cycleVisits_length] at hmap hend
  exact ⟨hmap, hend.symm⟩

theorem countP_cycle {P B : Nat} (hP : 0 < P) (hB : 0 < B) (q : Nat → Nat → Bool) :
    (List.range (cycleTicks P B)).countP (fun k => q (cursorAfter P B k).1 (cursorAfter P B k).2.1) =
      ∑ d ∈ Finset.range P, ∑ b ∈ Finset.range B, if q b d then dwell P d else 0 := by
  rw [← countP_cycleVisits, ← (cursorAfter_cycle hP hB).1, List.countP_map]
  rfl

/-- Settles O27: of the pairs of a cycle one is counted, with its dwell. -/
theorem planesDwellInProportion : Obligations.PlanesDwellInProportion := by
  intro P B d b hP _ hB _ hd hb
  rw [countP_cycle hP hB (fun b' d' => decide ((b', d') = (b, d))), Finset.sum_eq_single_of_mem d (Finset.mem_range.2 hd),
    Finset.sum_eq_single_of_mem b (Finset.mem_range.2 hb)]
  · simp [dwell]
  · intro b' _ hne
    simp [hne]
  · intro d' _ hne
    simp [hne]

/-- The bits of a number add up to it. -/
theorem sum_testBit (v n : Nat) : (∑ i ∈ Finset.range n, if v.testBit i then 2 ^ i else 0) = v % 2 ^ n := by
  induction n with
  | zero => simp [Nat.mod_one]
  | succ n ih =>
    rw [Finset.sum_range_succ, ih, Nat.mod_pow_succ, Nat.testBit_eq_decide_div_mod_eq]
    obtain h | h := Nat.mod_two_eq_zero_or_one (v / 2 ^ n) <;> simp [h]

/-- Settles O28: in the bank's pairs the dwell of a plane is the weight of the bit it holds. -/
theorem intensityIsTheChannelValue : Obligations.IntensityIsTheChannelValue := by
  intro P B b v hP _ hB _ hb hv
  calc _ = ∑ d ∈ Finset.range P, ∑ b' ∈ Finset.range B,
        if (decide (b' = b) && v.testBit (P - 1 - d)) = true then dwell P d else 0 :=
      countP_cycle hP hB (fun b' d => decide (b' = b) && v.testBit (P - 1 - d))
    _ = ∑ d ∈ Finset.range P, if v.testBit (P - 1 - d) then dwell P d else 0 := by
      refine Finset.sum_congr rfl fun d _ => ?_
      rw [Finset.sum_eq_single_of_mem b (Finset.mem_range.2 hb) fun b' _ hne => by simp [hne]]
      simp
    _ = ∑ i ∈ Finset.range P, if v.testBit i then 2 ^ i else 0 :=
      sum_dwell P (fun i n => if v.testBit i then n else 0)
    _ = v := by rw [sum_testBit, Nat.mod_eq_of_lt hv]

end Sys2Proof.Machine

/-! The block's ticks follow the schedule (spec/42_refresh_scheduler.md R145, R155). -/

namespace Sys2Proof.Machine

theorem tickTimes_succ {k : Nat} {s t u : State} (h : tickTimes k s = .next t) (htick : exec .tick t = .next u) :
    tickTimes (k + 1) s = .next u := by
  have hone : ticks (k + 1) = ticks k ++ [.tick] := List.replicate_succ'
  rw [tickTimes, hone, execAll_append h, execAll_of_next htick, execAll]

/-! ### Any number of ticks (R145) -/

/-- The cursor stays in range along the schedule (R39). -/
theorem cursorAfter_inRange {P B : Nat} (hP : 0 < P) (hB : 0 < B) (k : Nat) :
    (cursorAfter P B k).2.1 < P ∧ (cursorAfter P B k).2.2 < dwell P (cursorAfter P B k).2.1 := by
  induction k with
  | zero => exact ⟨hP, dwell_pos P 0⟩
  | succ k ih =>
    rw [cursorAfter, cursorTick]
    split
    · exact ⟨ih.1, ‹_›⟩
    · exact ⟨(nextPair_lt hP hB ih.1).2, dwell_pos P _⟩

/-- A plane of a legal plane count is shown for at most 32 ticks, so the count of them never wraps. -/
theorem dwell_le_32 {P : Nat} (hP : P ≤ 6) (d : Nat) : dwell P d ≤ 32 :=
  Nat.pow_le_pow_right (i := P - 1 - d) (j := 5) Nat.two_pos (by omega)

theorem toNat_add_one_of_lt_dwell {P : Nat} (hP : P ≤ 6) {d : Nat} {n : BitVec 8} (hn : n.toNat < dwell P d) :
    (n + 1#8).toNat = n.toNat + 1 := by
  have hdwell := dwell_le_32 hP d
  rw [BitVec.toNat_add, BitVec.toNat_one (by decide), Nat.mod_eq_of_lt (by omega)]

/-- `t` is `s` some ticks later: still running, configured as `s`, with the buffer of `s`. -/
structure State.TicksTo (s t : State) : Prop where
  P : t.P = s.P
  B : t.B = s.B
  fb : t.fb = s.fb
  phase : t.phase = .running
  timer : t.timerEnabled = true

theorem transition_timerEnabled (s : State) : (transition s).timerEnabled = s.timerEnabled := by
  unfold transition
  split <;> rfl

theorem State.TicksTo.transition {s t : State} (h : s.TicksTo t) : s.TicksTo (transition t) := by
  obtain ⟨-, hkept⟩ := transition_keepsConfiguration t
  obtain ⟨-, hP, hB, -⟩ := hkept (by simp [h.phase])
  exact ⟨hP.trans h.P, hB.trans h.B, (transition_fb t).trans h.fb, (transition_phase t).trans h.phase,
    (transition_timerEnabled t).trans h.timer⟩

/-- One tick of a running block moves the cursor as `cursorTick` does. -/
theorem exec_tick_cursor {s t : State} (h : s.TicksTo t) (hP : s.P ≤ 6) (hcount : t.subcount.toNat < dwell s.P t.plane) :
    ∃ u, exec .tick t = .next u ∧ s.TicksTo u ∧ u.cursor = cursorTick s.P s.B t.cursor := by
  have hnext := toNat_add_one_of_lt_dwell hP hcount
  by_cases hidle : t.subcount.toNat + 1 < dwell s.P t.plane
  · refine ⟨_, exec_tick_of_lt_dwell h.phase h.timer (by rwa [hnext, h.P]), ⟨h.P, h.B, h.fb, h.phase, h.timer⟩, ?_⟩
    exact (congrArg (fun n => (t.bank, t.plane, n)) hnext).trans (cursorTick_of_lt hidle).symm
  · have hle := Nat.le_of_not_lt hidle
    refine ⟨_, exec_tick_of_dwell_le h.phase h.timer (by rwa [hnext, h.P]), h.transition, ?_⟩
    rw [transition_cursor, State.nextBank, State.nextPlane, h.P, h.B]
    exact (cursorTick_of_le hle).symm

theorem tickTimes_cursor {s : State} (hstart : s.TicksTo s) (hP : 0 < s.P) (hP6 : s.P ≤ 6) (hB : 0 < s.B)
    (hcursor : s.cursor = (0, 0, 0)) (k : Nat) :
    ∃ t, tickTimes k s = .next t ∧ s.TicksTo t ∧ t.cursor = cursorAfter s.P s.B k := by
  induction k with
  | zero => exact ⟨s, rfl, hstart, hcursor⟩
  | succ k ih =>
    obtain ⟨t, hticks, hto, ht⟩ := ih
    have hrange := (cursorAfter_inRange hP hB k).2
    rw [← ht] at hrange
    obtain ⟨u, htick, hu, hmove⟩ := exec_tick_cursor hto hP6 hrange
    exact ⟨u, tickTimes_succ hticks htick, hu, by rw [hmove, ht, cursorAfter]⟩

theorem cursorAfter_eq_iterate (P B k : Nat) : cursorAfter P B k = (cursorTick P B)^[k] (0, 0, 0) := by
  induction k with
  | zero => rfl
  | succ k ih => rw [cursorAfter, ih, Function.iterate_succ_apply']

theorem cursorAfter_mul_cycle {P B : Nat} (hP : 0 < P) (hB : 0 < B) (n : Nat) :
    cursorAfter P B (n * cycleTicks P B) = (0, 0, 0) := by
  have hcycle := (cursorAfter_cycle hP hB).2
  rw [cursorAfter_eq_iterate] at hcycle ⊢
  rw [Nat.mul_comm, Function.iterate_mul]
  exact Function.iterate_fixed hcycle n

/-- Settles O26: tick by tick the cursor is the schedule's, which is back at the start after each cycle. -/
theorem refreshCycleRepeats : Obligations.RefreshCycleRepeats := by
  intro s hphase htimer _ hP hP6 hB _ hcursor
  have hticks := tickTimes_cursor ⟨rfl, rfl, rfl, hphase, htimer⟩ hP hP6 hB hcursor
  refine ⟨fun k => ?_, fun n => ?_⟩
  · obtain ⟨t, hk, hto, ht⟩ := hticks k
    exact ⟨t, hk, ht, hto.fb, hto.phase⟩
  · obtain ⟨t, hk, -, ht⟩ := hticks (n * cycleTicks s.P s.B)
    exact ⟨t, hk, ht.trans (cursorAfter_mul_cycle hP hB n)⟩

/-! ### The first dwell after START (R155) -/

theorem ofNat_toNat_of_lt_dwell {P : Nat} (hP : P ≤ 6) {d k : Nat} (hk : k < dwell P d) :
    (BitVec.ofNat 8 k).toNat = k := by
  have hdwell := dwell_le_32 hP d
  rw [BitVec.toNat_ofNat, Nat.mod_eq_of_lt (by omega)]

/-- The state START leaves, with `n` ticks counted since. -/
def State.started (s : State) (n : BitVec 8) : State := (s.withCursor 0 0 n).enableTimer

theorem ofNat_add_one (k : Nat) : BitVec.ofNat 8 k + 1#8 = BitVec.ofNat 8 (k + 1) := (BitVec.ofNat_add k 1).symm

/-- Below the dwell of plane 0 the ticks after START only count. -/
theorem tickTimes_started {s : State} (hP : s.P ≤ 6) {k : Nat} (hk : k < dwell s.P 0) :
    tickTimes k (s.started 0#8) = .next (s.started (BitVec.ofNat 8 k)) := by
  induction k with
  | zero => rfl
  | succ k ih =>
    have hcount : (BitVec.ofNat 8 k + 1#8).toNat < dwell s.P 0 := by
      rwa [ofNat_add_one, ofNat_toNat_of_lt_dwell hP hk]
    have htick := exec_tick_of_lt_dwell (s := s.started (BitVec.ofNat 8 k)) rfl rfl hcount
    rw [tickTimes_succ (ih (Nat.lt_of_succ_lt hk)) htick, ← ofNat_add_one k]
    rfl

/-- The tick that completes the dwell is the first transition. -/
theorem tickTimes_dwell_started {s : State} (hP : s.P ≤ 6) :
    ∃ n, tickTimes (dwell s.P 0) (s.started 0#8) = .next (transition (s.started n)) := by
  obtain ⟨k, hk⟩ := Nat.exists_eq_add_one.2 (dwell_pos s.P 0)
  have hlt : k < dwell s.P 0 := hk ▸ k.lt_succ_self
  have hcount : dwell s.P 0 ≤ (BitVec.ofNat 8 k + 1#8).toNat := by
    rw [toNat_add_one_of_lt_dwell hP (by rwa [ofNat_toNat_of_lt_dwell hP hlt]), ofNat_toNat_of_lt_dwell hP hlt, hk]
  refine ⟨BitVec.ofNat 8 k, ?_⟩
  rw [hk]
  exact tickTimes_succ (tickTimes_started hP hlt)
    (exec_tick_of_dwell_le (s := s.started (BitVec.ofNat 8 k)) rfl rfl hcount)

/-- Settles O25: `2^(P-1)` is the dwell of plane 0, and the tick that completes it emits the words of a transition. -/
theorem firstDwellAfterStartIsDark : Obligations.FirstDwellAfterStartIsDark := by
  intro s t hready hinterleave _ hP6 hN hstart
  rw [exec_start_of_ready hready] at hstart
  cases hstart
  obtain ⟨n, hticks⟩ := tickTimes_dwell_started hP6
  obtain ⟨p, htransition, -, hemitted, -⟩ := transition_spec (s.started n) hinterleave hN
  refine ⟨fun k => tickTimes_started hP6, _, hticks, transition_cursor (s.started n), ?_⟩
  have hslice : (s.started n).nextSlice.length = s.N := bytesFrom_length _ _ _
  rw [htransition]
  show p.emitted.length = _
  rw [hemitted, List.length_append, List.length_reverse, transitionWords_length, hslice]
  exact Nat.add_comm _ _



end Sys2Proof.Machine

/-! Lists of buffer primitives (spec/41_framebuffer_ops.md R121): each is an update of one byte, and a byte sees only the
updates at its own address. CLEAR (R132) and SETPIX (R130, spec/70_reset_and_hazards.md R264) are two such lists. -/

namespace Sys2Proof.Machine

/-- One byte replaced by a function of itself. -/
def Memory.update (m : Memory) (u : Nat × (Byte → Byte)) : Memory := m.write u.1 (u.2 (m.read u.1))

section updates
variable {us : List (Nat × (Byte → Byte))} {m : Memory} {a : Nat} {Q : Byte → Prop}

/-- What the updates at its address keep true of a byte stays true of it. -/
theorem read_updates_of_keeps (hkeeps : ∀ u ∈ us, u.1 = a → ∀ v, Q v → Q (u.2 v)) (h : Q (m.read a)) :
    Q ((us.foldl Memory.update m).read a) := by
  induction us generalizing m with
  | nil => exact h
  | cons u us ih =>
    obtain ⟨hu, hus⟩ := List.forall_mem_cons.1 hkeeps
    refine ih hus ?_
    rw [Memory.update, Memory.read_write]
    split
    · next ha => exact hu ha.symm _ (ha ▸ h)
    · exact h

/-- What each update at its address makes true of a byte is true of it, once there is one. -/
theorem read_updates_of_sets (hsets : ∀ u ∈ us, u.1 = a → ∀ v, Q (u.2 v)) (h : ∃ u ∈ us, u.1 = a) :
    Q ((us.foldl Memory.update m).read a) := by
  induction us generalizing m with
  | nil => simp at h
  | cons u us ih =>
    obtain ⟨hu, hus⟩ := List.forall_mem_cons.1 hsets
    by_cases ha : u.1 = a
    · have hbyte : (m.update u).read a = u.2 (m.read u.1) := (Memory.read_write _ _ _ _).trans (if_pos ha.symm)
      exact read_updates_of_keeps (us := us) (fun w hw hwa v _ => hus w hw hwa v) (hbyte ▸ hu ha _)
    · obtain hhere | hlater := (List.exists_mem_cons_iff _ _ _).1 h
      · exact absurd hhere ha
      · exact ih hus hlater

end updates

theorem markRefused_idem (mark : Option RefusalReason) (r : RefusalReason) :
    markRefused (markRefused mark r) r = markRefused mark r := by
  cases mark <;> rfl

/-- The updates a list of operations makes, where it makes them. -/
def byteUpdates (is : List Instr) : List (Nat × (Byte → Byte)) := is.filterMap byteUpdate

/-- In an initialised block a list of primitives makes the updates inside the buffer and marks the run F6 for the
others. -/
theorem execAll_primitives {is : List Instr} (his : ∀ i ∈ is, isBufferPrimitive i = true) {s : State}
    (hphase : s.phase ≠ .uninit) :
    ∃ mark, execAll is s = .next
        { s with fb := ((byteUpdates is).filter (fun u => u.1 < s.bufferSize)).foldl Memory.update s.fb,
                 refused := mark } ∧
      ((∃ u ∈ byteUpdates is, s.bufferSize ≤ u.1) → mark = markRefused s.refused .bufferAddressOutOfRange) ∧
      ((∀ u ∈ byteUpdates is, u.1 < s.bufferSize) → mark = s.refused) := by
  induction is generalizing s with
  | nil => exact ⟨s.refused, rfl, by simp [byteUpdates], fun _ => rfl⟩
  | cons i is ih =>
    obtain ⟨hi, his⟩ := List.forall_mem_cons.1 his
    obtain ⟨a, f, hupdate, hexec⟩ := exec_primitive hi
    have hcons : byteUpdates (i :: is) = (a, f) :: byteUpdates is := List.filterMap_cons_some hupdate
    rw [hcons]
    by_cases ha : a < s.bufferSize
    · obtain ⟨mark, hall, hout, hin⟩ := ih his (s := s.withFb (s.fb.write a (f (s.fb.read a)))) hphase
      refine ⟨mark, ?_, fun h => hout ?_, fun h => hin (List.forall_mem_cons.1 h).2⟩
      · rw [execAll_of_next ((hexec s).trans (updateByte_next f hphase ha)), hall,
          List.filter_cons_of_pos (by simpa using ha)]
        rfl
      · exact ((List.exists_mem_cons_iff _ _ _).1 h).resolve_left (Nat.not_le.2 ha)
    · have hle := Nat.le_of_not_lt ha
      obtain ⟨mark, hall, hout, hin⟩ := ih his (s := refuse .bufferAddressOutOfRange s) hphase
      refine ⟨mark, ?_, fun _ => ?_, fun h => absurd (List.forall_mem_cons.1 h).1 ha⟩
      · rw [execAll_of_next ((hexec s).trans (updateByte_of_bufferSize_le f hphase hle)), hall,
          List.filter_cons_of_neg (by simpa using ha)]
        rfl
      · by_cases hlater : ∃ u ∈ byteUpdates is, s.bufferSize ≤ u.1
        · rw [hout hlater, refuse_refused, markRefused_idem]
        · exact hin fun u hu => Nat.lt_of_not_le fun hle => hlater ⟨u, hu, hle⟩

/-- Where no address lies outside the buffer, every update is made and nothing is refused. -/
theorem execAll_primitives_inside {is : List Instr} (his : ∀ i ∈ is, isBufferPrimitive i = true) {s : State}
    (hphase : s.phase ≠ .uninit) (hinside : ∀ u ∈ byteUpdates is, u.1 < s.bufferSize) :
    execAll is s = .next { s with fb := (byteUpdates is).foldl Memory.update s.fb } := by
  obtain ⟨mark, hall, -, hin⟩ := execAll_primitives his hphase
  rw [hall, hin hinside, List.filter_eq_self.2 fun u hu => decide_eq_true (hinside u hu)]

/-! ### CLEAR (R132) -/

/-- The byte CLEAR writes. -/
def clearFill (white : Bool) : Byte := if white then 0xFF#8 else 0x00#8

theorem clear_primitives (P B N : Nat) (white : Bool) : ∀ i ∈ clear P B N white, isBufferPrimitive i = true := by
  simp [clear, isBufferPrimitive]

theorem byteUpdates_clear (P B N : Nat) (white : Bool) :
    byteUpdates (clear P B N white) = (List.range (P * B * N)).map (fun a => (a, fun _ => clearFill white)) := by
  rw [byteUpdates, clear, List.filterMap_map]
  exact congrFun List.filterMap_eq_map _

theorem hostRead_withFb {s : State} (hphase : s.phase ≠ .uninit) (fb : Memory) (a : Nat) :
    (s.withFb fb).hostRead a = if a < s.P * s.B * s.N then some (fb.read a) else none := by
  simp [State.hostRead, hphase]

/-- Settles O14: each address below `P*B*N` has one update, which writes the fill value; no other address has one. -/
theorem clearFillsTheBuffer : Obligations.ClearFillsTheBuffer := by
  intro s white hphase
  have hops : s.clearOps white = clear s.P s.B s.N white := if_neg hphase
  have hread : ∀ a, ((byteUpdates (clear s.P s.B s.N white)).foldl Memory.update s.fb).read a =
      if a < s.P * s.B * s.N then clearFill white else s.fb.read a := by
    intro a
    rw [byteUpdates_clear]
    split
    · next ha =>
      refine read_updates_of_sets (Q := fun v => v = clearFill white) ?_ ⟨_, List.mem_map_of_mem (List.mem_range.2 ha), rfl⟩
      simp
    · next ha =>
      refine read_updates_of_keeps (Q := fun v => v = s.fb.read a) ?_ rfl
      simp only [List.forall_mem_map, List.mem_range]
      exact fun x hx hxa => absurd (hxa ▸ hx) ha
  refine ⟨_, ?_, hread, fun a => ?_⟩
  · rw [hops]
    refine execAll_primitives_inside (clear_primitives _ _ _ _) hphase ?_
    simp [byteUpdates_clear]
  · rw [hostRead_withFb hphase, hread]
    by_cases
 ha : a < s.P * s.B * s.N <;> simp [ha, clearFill]


end Sys2Proof.Machine

/-! SETPIX (spec/41_framebuffer_ops.md R128 to R131; spec/70_reset_and_hazards.md R264): one update for each plane and
channel, of one bit, at an address no other of them has. -/

namespace Sys2Proof.Machine

/-! ### One bit of a byte -/

/-- The byte with the bits of `m` all set or all cleared. -/
def bitUpdate (bit : Bool) (m v : Byte) : Byte := if bit then v ||| m else v &&& ~~~m

theorem byteUpdate_bitOp (bit : Bool) (a : Nat) (m : Byte) : byteUpdate (bitOp bit a m) = some (a, bitUpdate bit m) := by
  cases bit <;> rfl

theorem isBufferPrimitive_bitOp (bit : Bool) (a : Nat) (m : Byte) : isBufferPrimitive (bitOp bit a m) = true := by
  cases bit <;> rfl

theorem bitUpdate_line {line : Nat} (hline : line < 8) (bit : Bool) (v : Byte) :
    (bitUpdate bit (BitVec.twoPow 8 line) v).getLsbD line = bit := by
  cases bit
  · rw [bitUpdate, if_neg Bool.false_ne_true, getLsbD_andNot, getLsbD_pin hline]
    simp
  · rw [bitUpdate, if_pos rfl, BitVec.getLsbD_or, getLsbD_pin hline]
    simp

theorem bitUpdate_other_line {line other : Nat} (hline : line < 8) (hne : other ≠ line) (bit : Bool) (v : Byte) :
    (bitUpdate bit (BitVec.twoPow 8 line) v).getLsbD other = v.getLsbD other := by
  cases bit
  · rw [bitUpdate, if_neg Bool.false_ne_true, getLsbD_andNot, getLsbD_pin hline]
    simp [hne]
  · rw [bitUpdate, if_pos rfl, BitVec.getLsbD_or, getLsbD_pin hline]
    simp [hne]

/-! ### The updates of a pixel -/

theorem setPixelOps_on_panel {s : State} {x y : Nat} (k : Colour s.cfg.geometry.chBits) (hphase : s.phase ≠ .uninit)
    (hx : x < s.cfg.geometry.width) (hy : y < s.cfg.geometry.height) :
    s.setPixelOps x y k = (List.range s.P).flatMap (fun d => setPixelPlane s.cfg s.P s.B s.N x y d k) := by
  have hon : s.cfg.geometry.onPanel x y = true := (s.cfg.geometry.onPanel_iff x y).2 (by omega)
  rw [State.setPixelOps, setPixel, if_neg hphase, if_pos hon]
  rfl

section pixel
variable {c : Config} (P B N x y : Nat) (k : Colour c.geometry.chBits)

/-- The address of plane `d`'s byte of the channel (R130, R264). -/
def channelAddress (c : Config) (d : Nat) (ch : Nat × BitVec c.geometry.chBits) : Nat :=
  pixelAddress P B N d (c.pixelBank y) (c.pixelOffset x y + ch.1 * 16)

theorem setPixelPlanes_primitives :
    ∀ i ∈ (List.range P).flatMap (fun d => setPixelPlane c P B N x y d k), isBufferPrimitive i = true := by
  simp only [List.forall_mem_flatMap, setPixelPlane, List.forall_mem_map, isBufferPrimitive_bitOp, implies_true]

theorem mem_byteUpdates_setPixel {u : Nat × (Byte → Byte)} :
    u ∈ byteUpdates ((List.range P).flatMap (fun d => setPixelPlane c P B N x y d k)) ↔
      ∃ d, d < P ∧ ∃ ch ∈ k.channels,
        u = (channelAddress P B N x y c d ch, bitUpdate (c.geometry.planeBit P d ch.2) (c.pixelBit y)) := by
  simp only [byteUpdates, List.mem_filterMap, List.mem_flatMap, List.mem_range, setPixelPlane, List.mem_map]
  constructor
  · rintro ⟨i, ⟨d, hd, ch, hch, rfl⟩, hu⟩
    rw [byteUpdate_bitOp] at hu
    exact ⟨d, hd, ch, hch, (Option.some.inj hu).symm⟩
  · rintro ⟨d, hd, ch, hch, rfl⟩
    exact ⟨_, ⟨d, hd, ch, hch, rfl⟩, byteUpdate_bitOp _ _ _⟩

theorem channels_le_two {ch : Nat × BitVec c.geometry.chBits} (hch : ch ∈ k.channels) : ch.1 ≤ 2 := by
  have hall : ∀ ch ∈ k.channels, ch.1 ≤ 2 := by simp [Colour.channels]
  exact hall ch hch

/-- The three channels have three byte positions (R85). -/
theorem channels_ext {ch ch' : Nat × BitVec c.geometry.chBits} (hch : ch ∈ k.channels) (hch' : ch' ∈ k.channels)
    (h : ch.1 = ch'.1) : ch = ch' := by
  have hall : ∀ ch ∈ k.channels, ∀ ch' ∈ k.channels, ch.1 = ch'.1 → ch = ch' := by simp [Colour.channels]
  exact hall ch hch ch' hch' h

end pixel

/-- The channel's byte of the pixel's own slice (R130). -/
theorem channelAddress_inside {c : Config} {P B N x y d : Nat} {ch : Nat × BitVec c.geometry.chBits}
    (hbank : c.pixelBank y < B) (hoffset : c.pixelOffset x y + ch.1 * 16 < N) :
    channelAddress P B N x y c d ch = fbAddress B N d (c.pixelBank y) (c.pixelOffset x y + ch.1 * 16) :=
  pixelAddress_inside hbank hoffset

/-- An address inside the buffer is that of a byte inside the slice (R264). -/
theorem channelAddress_lt_iff {c : Config} {P B N x y d : Nat} {ch : Nat × BitVec c.geometry.chBits} (hd : d < P) :
    channelAddress P B N x y c d ch < P * B * N ↔ c.pixelBank y < B ∧ c.pixelOffset x y + ch.1 * 16 < N := by
  by_cases h : c.pixelBank y < B ∧ c.pixelOffset x y + ch.1 * 16 < N
  · simp [h, channelAddress_inside h.1 h.2, fbAddress_lt hd h.1 h.2]
  · rw [channelAddress, pixelAddress_outside h]
    simp [h]

/-- In a slice the address tells the plane and the channel's byte position (R51). -/
theorem fbAddress_inj {B N d d' b i i' : Nat} (hb : b < B) (hi : i < N) (hi' : i' < N)
    (h : fbAddress B N d b i = fbAddress B N d' b i') : d = d' ∧ i = i' :=
  ⟨by rw [← planeOf_fbAddress (p := d) hb hi, h, planeOf_fbAddress hb hi'],
    by rw [← offsetOf_fbAddress (B := B) (p := d) (b := b) hi, h, offsetOf_fbAddress hi']⟩

/-- Settles O15: where the geometry fits, each channel's bit has one update, and no other bit of the buffer has one. -/
theorem setPixelWritesExactlyItsBits : Obligations.SetPixelWritesExactlyItsBits := by
  intro s x y k hphase hfits hx hy
  obtain ⟨hreach, hbank, hline⟩ := Config.geometryFits_at hfits hx hy
  have hoffset : ∀ ch ∈ k.channels, s.cfg.pixelOffset x y + ch.1 * 16 < s.N := fun ch hch => by
    have := channels_le_two k hch
    simp only [chStride] at hreach
    omega
  rw [setPixelOps_on_panel k hphase hx hy]
  refine ⟨_, execAll_primitives_inside (setPixelPlanes_primitives _ _ _ _ _ k) hphase fun u hu => ?_, fun d hd ch hch => ?_,
    fun a line hl hother => ?_⟩
  · obtain ⟨d, hd, ch, hch, rfl⟩ := (mem_byteUpdates_setPixel _ _ _ _ _ k).1 hu
    exact (channelAddress_lt_iff hd).2 ⟨hbank, hoffset ch hch⟩
  · refine read_updates_of_sets (Q := fun v => v.getLsbD (s.cfg.pixelLine y) = s.cfg.geometry.planeBit s.P d ch.2) ?_ ?_
    · intro u hu ha v
      obtain ⟨d', hd', ch', hch', rfl⟩ := (mem_byteUpdates_setPixel _ _ _ _ _ k).1 hu
      rw [channelAddress_inside hbank (hoffset ch' hch')] at ha
      obtain ⟨rfl, hposition⟩ := fbAddress_inj hbank (hoffset ch' hch') (hoffset ch hch) ha
      obtain rfl := channels_ext k hch' hch (by omega)
      exact bitUpdate_line hline _ v
    · exact ⟨_, (mem_byteUpdates_setPixel _ _ _ _ _ k).2 ⟨d, hd, ch, hch, rfl⟩,
        channelAddress_inside hbank (hoffset ch hch)⟩
  · refine read_updates_of_keeps (Q := fun v => v.getLsbD line = (s.fb.read a).getLsbD line) ?_ rfl
    intro u hu ha v hv
    obtain ⟨d, hd, ch, hch, rfl⟩ := (mem_byteUpdates_setPixel _ _ _ _ _ k).1 hu
    rw [channelAddress_inside hbank (hoffset ch hch)] at ha
    obtain hne | hnone := hother
    · exact (bitUpdate_other_line hline hne _ v).trans hv
    · exact absurd ha.symm (hnone d hd ch hch)

/-- Settles O56: an update outside its slice is at no address of the buffer, and every other one is at the pixel's own. -/
theorem setPixelOutsideTheSliceIsRefused : Obligations.SetPixelOutsideTheSliceIsRefused := by
  intro s x y k hphase hP hx hy
  rw [setPixelOps_on_panel k hphase hx hy]
  obtain ⟨mark, hall, hout, hin⟩ := execAll_primitives (setPixelPlanes_primitives s.P s.B s.N x y k) hphase
  refine ⟨_, mark, hall, ?_, fun hinside => hin fun u hu => ?_, fun a hchanged => ?_⟩
  · rintro ⟨ch, hch, houtside⟩
    refine hout ⟨_, (mem_byteUpdates_setPixel _ _ _ _ _ k).2 ⟨0, hP, ch, hch, rfl⟩, Nat.le_of_not_lt fun hlt => ?_⟩
    obtain ⟨hbank, hoffset⟩ := (channelAddress_lt_iff hP).1 hlt
    omega
  · obtain ⟨d, hd, ch, hch, rfl⟩ := (mem_byteUpdates_setPixel _ _ _ _ _ k).1 hu
    exact (channelAddress_lt_iff hd).2 (hinside ch hch)
  · by_contra hnone
    refine hchanged (read_updates_of_keeps (Q := fun v => v = s.fb.read a) ?_ rfl)
    intro u hu ha
    obtain ⟨hmem, hlt⟩ := List.mem_filter.1 hu
    obtain ⟨d, hd, ch, hch, rfl⟩ := (mem_byteUpdates_setPixel _ _ _ _ _ k).1 hmem
    obtain ⟨hbank, hoffset⟩ := (channelAddress_lt_iff hd).1 (of_decide_eq_true hlt)
    exact absurd ⟨d, hd, ch, hch, hbank, hoffset, ha.symm.trans (channelAddress_inside hbank hoffset)⟩ hnone

end Sys2Proof.Machine
